-- ==== Sys2Proof/Word.lean ====
section
/-!
DEFINITION. The word types of the core.
-/

namespace Sys2Proof

/-- `XLEN` = 8: a register, a memory cell, an immediate, an operand byte (00_scope.md R5, R13). -/
abbrev Byte := BitVec 8

/-- `PC_WIDTH` = 9: the program counter, 0 to 256 (00_scope.md R10, 10_state.md R27). -/
abbrev PcWord := BitVec 9

end Sys2Proof
end

