-- ==== Sys2Proof/Config.lean ====
section
/-!
DEFINITION. The three named parameters a model may take as arguments (92_eei_decisions.md, last table), with the
values the spec takes. The spec leaves no value open, so there is no free value here.
-/

namespace Sys2Proof

/-- `FETCH_POLICY` (00_scope.md R11): which bytes the fetch reads before it looks the opcode up. -/
inductive FetchPolicy where
  /-- 30_encoding.md R79: the opcode, then only the operand bytes its length needs. -/
  | boundsAware
  /-- 30_encoding.md R80: always three bytes, then the lookup. -/
  | strictThree
  deriving DecidableEq, Repr

/-- What is fixed for one machine. -/
structure Config where
  /-- `FETCH_POLICY`, 00_scope.md R11. -/
  fetchPolicy : FetchPolicy
  /-- `SP_RESET`, 00_scope.md R9. -/
  spReset : Byte
  /-- `E_RESET`, 00_scope.md R12. -/
  eReset : Bool
  deriving DecidableEq, Repr

/-- The values this spec takes: 00_scope.md R11, R9 and R12. -/
def Config.spec : Config := { fetchPolicy := .boundsAware, spReset := 0xF4#8, eReset := false }

end Sys2Proof
end

