-- ==== Sys2Proof/Machine/State.lean ====
section
/-!
DEFINITION. The state of the core, its fault causes, its stops and its reset values.
-/

namespace Sys2Proof.Machine

/-- The run state (10_state.md R31). -/
inductive RunState where
  /-- After reset, before `start`. -/
  | idle
  /-- Executing one instruction after another. -/
  | running
  /-- Terminal, entered only by HLT. -/
  | halted
  /-- Terminal, entered by a fault. -/
  | faulted
  deriving DecidableEq, Repr

/-- The fatal errors of 60_exceptions.md R104, each with the value it records. Raising one is no stop of the model:
the step takes the fault (R111) and answers a next state. -/
inductive FaultCause where
  /-- R105: an address outside memory, as an unbounded integer. -/
  | outOfBounds (address : Int)
  /-- R107: an operand byte above 7 used as a register index. -/
  | invalidRegister (index : Byte)
  /-- R106: an opcode byte that is not in the table. -/
  | illegalInstruction (opcode : Byte)
  /-- R108: an ALU tag that names no operation. No instruction can raise it. -/
  | unsupportedOperation (tag : BitVec 2)
  deriving DecidableEq, Repr

/-- What the ALU returns (41_register_alu.md R89). -/
structure AluOut where
  /-- The result, if the operation has one. -/
  result : Option Byte
  /-- The new value of E, if the operation writes it. -/
  flagUpdate : Option Bool
  deriving DecidableEq, Repr

/-- The values of the host's input ports in one step (00_scope.md R16 to R18). -/
structure HostInput where
  rst : Bool
  ldWe : Bool
  ldAddr : Byte
  ldData : Byte
  start : Bool
  deriving DecidableEq, Repr

/-- The memory `M[0..255]` (20_memory.md R41) as (address, byte) pairs: addresses strictly rising, no byte equal to
what an unlisted address reads as (`Memory.wf` in Machine/Ops.lean). -/
abbrev Memory := List Host.Cell

/-- The state of the machine. `regs`, `pc`, `e`, `run`, `faultCode`, `faultInfo`, `faultPc`, `mem` and `outPort` are the
spec's (70_reset_and_hazards.md R123 lists them all); `out` and `inputs` are the model's own. -/
structure State where
  /-- R0 to R7; R7 is the stack pointer (10_state.md R22, R23). -/
  regs : Vector Byte 8
  /-- The program counter (10_state.md R27). -/
  pc : PcWord
  /-- The Equal flag E (10_state.md R30). -/
  e : Bool
  /-- The run state (10_state.md R31). -/
  run : RunState
  /-- `fault_code` (10_state.md R33). -/
  faultCode : BitVec 3
  /-- `fault_info` (10_state.md R33). -/
  faultInfo : BitVec 16
  /-- `fault_pc` (10_state.md R33). -/
  faultPc : PcWord
  /-- The memory (20_memory.md R41). -/
  mem : Memory
  /-- The output port in the step just done (00_scope.md R19): `some v` is `out_valid` = 1 with `out_data` = v. -/
  outPort : Option Byte
  /-- The output trace, oldest value first (10_state.md R36). DEDUCED, safe: see log entry 2. -/
  out : List Byte
  /-- The host's inputs in the steps to come, the next one first (10_state.md R36). DESIGN CHOICE, unsafe: see log
  entry 1. -/
  inputs : List HostInput
  deriving DecidableEq, Repr

/-- The model's stops with a fault. There is none: every error of the spec is a state the core goes on to
(60_exceptions.md R111), so nothing raises one, which is safe: no run is cut short. -/
inductive Fault : Type
  deriving DecidableEq, Repr

/-- The model's refusals. -/
inductive Refusal where
  /-- Raised by an arm of `exec` whose instruction has no meaning yet (no arm is left so). Safe: the run stops. -/
  | notModelled (mnemonic : String)
  deriving DecidableEq, Repr

/-- The outcome of a step of this machine. -/
abbrev Outcome := Host.Outcome State Fault Refusal

/-- Every piece of state at its reset value (70_reset_and_hazards.md R123), for given parameters. -/
def State.resetWith (c : Config) : State :=
  { regs := #v[0x00#8, 0x00#8, 0x00#8, 0x00#8, 0x00#8, 0x00#8, 0x00#8, c.spReset]
    pc := 0#9
    e := c.eReset
    run := .idle
    faultCode := 0#3
    faultInfo := 0#16
    faultPc := 0#9
    mem := []
    outPort := none
    out := []
    inputs := [] }

/-- The machine right after reset, with the parameters the spec takes (70_reset_and_hazards.md R123). -/
def State.reset : State := State.resetWith Config.spec

end Sys2Proof.Machine
end

