-- ==== Sys2Proof/Machine/Ops.lean ====
section
/-!
DEFINITION. The shared operations: registers, memory, the stack unit, the output port, the program counter, and taking
a fault. An operation that can raise a fault answers `Except FaultCause` (00_scope.md R15).
-/

namespace Sys2Proof.Machine

/-! ## Registers and the program counter -/

/-- The raw content `R[i]` (00_scope.md R13). -/
def State.reg (s : State) (i : Fin 8) : Byte := s.regs[i]

/-- The raw write `R[i] <- v` (00_scope.md R14). -/
def State.setReg (s : State) (i : Fin 8) (v : Byte) : State := { s with regs := s.regs.set i v }

/-- The stack pointer is R7 (00_scope.md R8). -/
def State.sp (s : State) : Byte := s.reg 7

/-- Write R7. -/
def State.setSp (s : State) (v : Byte) : State := s.setReg 7 v

/-- A byte as a value of the program counter: 0 to 255 (10_state.md R29). -/
def byteToPc (v : Byte) : PcWord := v.setWidth 9

/-- `pc <- v`. -/
def State.setPc (s : State) (v : PcWord) : State := { s with pc := v }

/-- `pc <- p + n`, past an instruction of length n (30_encoding.md R85). From an address where such an instruction can
be fetched (p + n at most 256) the 9-bit sum does not wrap. -/
def State.advance (s : State) (n : Nat) : State := s.setPc (s.pc + BitVec.ofNat 9 n)

/-- `run <- r`. -/
def State.setRun (s : State) (r : RunState) : State := { s with run := r }

/-! ## Memory (20_memory.md)

One flat byte array for code, stack and the host (R37), pure storage with no cache or buffer before it (R58): fetch, stack and
load port all go through `Memory.read` and `Memory.write`, a write is there for the very next read (R57), and a read gives a
value and no new memory (R48). -/

/-- What an address with no entry reads as: every cell resets to 0x00 (20_memory.md R41). -/
def Memory.unlisted : Byte := 0x00#8

/-- The raw content `M[a]`. -/
def Memory.read : Memory → Nat → Byte
  | [], _ => Memory.unlisted
  | (b, v) :: m, a => if a = b then v else Memory.read m a

/-- One entry, or none for the value an unlisted address reads as. -/
def Memory.entry (a : Nat) (v : Byte) : Memory := if v = Memory.unlisted then [] else [(a, v)]

/-- The raw write `M[a] <- v`; it keeps the canonical form. -/
def Memory.write : Memory → Nat → Byte → Memory
  | [], a, v => Memory.entry a v
  | (b, w) :: m, a, v =>
    if a < b then Memory.entry a v ++ (b, w) :: m
    else if a = b then Memory.entry a v ++ m
    else (b, w) :: Memory.write m a v

/-- Addresses rise strictly from `lo`, stay below 256 (00_scope.md R7), and no entry holds the unlisted value. -/
def Memory.wfFrom (lo : Nat) : Memory → Bool
  | [] => true
  | (a, v) :: m => decide (lo ≤ a) && decide (a < 256) && decide (v ≠ Memory.unlisted) && Memory.wfFrom (a + 1) m

/-- The canonical form of memory. -/
def Memory.wf (m : Memory) : Bool := Memory.wfFrom 0 m

/-- `M <- m`. -/
def State.setMem (s : State) (m : Memory) : State := { s with mem := m }

/-- `MemRead(a, 1)` (20_memory.md R43). -/
def memRead (a : Int) (s : State) : Except FaultCause Byte :=
  if a < 0 ∨ a > 255 then .error (.outOfBounds a) else .ok (s.mem.read a.toNat)

/-- `MemWrite(a, 1, v)` (20_memory.md R44). -/
def memWrite (a : Int) (v : Byte) (s : State) : Except FaultCause State :=
  if a < 0 ∨ a > 255 then .error (.outOfBounds a) else .ok (s.setMem (s.mem.write a.toNat v))

/-- Store bytes at rising addresses from `a`; bytes past address 255 are dropped (log entries 5 and 15). No instruction uses it: it places an
instruction where the fetch will read it. -/
def Memory.writeBytes : Memory → Nat → List Byte → Memory
  | m, _, [] => m
  | m, a, v :: vs => if a < 256 then Memory.writeBytes (m.write a v) (a + 1) vs else m

/-! ## The stack unit (20_memory.md R50 to R54) -/

/-- The address a push stores to, not reduced mod 256 (20_memory.md R51; 30_encoding.md R84). -/
def pushAddress (s : State) : Int := (s.sp.toNat : Int) - 1

/-- `Push(v)` (20_memory.md R51). -/
def push (v : Byte) (s : State) : Except FaultCause State :=
  if pushAddress s < 0 then .error (.outOfBounds (pushAddress s))
  else memWrite (pushAddress s) v (s.setSp (BitVec.ofInt 8 (pushAddress s)))

/-- `Pop()` (20_memory.md R52): the popped byte and the state after it. -/
def pop (s : State) : Except FaultCause (Byte × State) := do
  let a : Int := s.sp.toNat
  let v ← memRead a s
  if a + 1 > 255 then .error (.outOfBounds (a + 1))
  else .ok (v, s.setSp (BitVec.ofInt 8 (a + 1)))

/-- Push the values of a list, first one first. -/
def pushAll : List Byte → State → Except FaultCause State
  | [], s => .ok s
  | v :: vs, s => do pushAll vs (← push v s)

/-- Pop n values: the list of them, first popped first, and the state after them. -/
def popMany : Nat → State → Except FaultCause (List Byte × State)
  | 0, s => .ok ([], s)
  | n + 1, s => do
    let (v, s) ← pop s
    let (vs, s) ← popMany n s
    .ok (v :: vs, s)

/-! ## The output port (00_scope.md R19) -/

/-- `Emit(v)`: one pulse on the port, and one more value in the output trace. -/
def emit (v : Byte) (s : State) : State := { s with outPort := some v, out := s.out ++ [v] }

/-! ## Taking a fault (60_exceptions.md R104, R110, R111) -/

/-- `fault_code` of a cause (60_exceptions.md R104). -/
def FaultCause.code : FaultCause → BitVec 3
  | .outOfBounds _ => 1#3
  | .invalidRegister _ => 2#3
  | .illegalInstruction _ => 3#3
  | .unsupportedOperation _ => 4#3

/-- `fault_info` of a cause (60_exceptions.md R104): an address in two's complement, anything else zero-extended. -/
def FaultCause.info : FaultCause → BitVec 16
  | .outOfBounds a => BitVec.ofInt 16 a
  | .invalidRegister i => i.setWidth 16
  | .illegalInstruction op => op.setWidth 16
  | .unsupportedOperation t => t.setWidth 16

/-- `FaultEntry(kind, info, p)` with p the pc of the faulting instruction (60_exceptions.md R111); nothing else
changes. There is no return from a fault (R114): only `rst` leaves Faulted, see `afterRst`. -/
def faultEntry (c : FaultCause) (s : State) : State :=
  { s with faultCode := c.code, faultInfo := c.info, faultPc := s.pc, run := .faulted }

/-- End an instruction that started in `s`: keep its whole effect, or, if it raised a fault, none of it, and take the
fault from `s` (00_scope.md R15; 60_exceptions.md R110). -/
def commit (s : State) : Except FaultCause State → Outcome
  | .ok t => .next t
  | .error c => .next (faultEntry c s)

/-! ## The host's side (00_scope.md R16 to R20) -/

/-- A host that asserts nothing. -/
def HostInput.quiet : HostInput :=
  { rst := false, ldWe := false, ldAddr := 0#8, ldData := 0#8, start := false }

/-- The host's inputs in the coming step; a quiet host when none is listed. -/
def State.input (s : State) : HostInput :=
  match s.inputs with
  | [] => .quiet
  | i :: _ => i

/-- A step begins: the input taken leaves the list and the last step's output pulse ends (00_scope.md R19). -/
def State.beginStep (s : State) : State := { s with inputs := s.inputs.tail, outPort := none }

/-- `rst` = 1: every piece of state to its reset value (00_scope.md R16; 70_reset_and_hazards.md R123, R124). The
host's inputs to come are the host's and stay. It is the only way out of Halted and Faulted (10_state.md R32). -/
def afterRst (c : Config) (s : State) : State := { State.resetWith c with inputs := s.inputs.tail }

/-- The load port (00_scope.md R17). -/
def loadPort (h : HostInput) (s : State) : State :=
  if h.ldWe then s.setMem (s.mem.write h.ldAddr.toNat h.ldData) else s

/-- The start port (00_scope.md R18). -/
def startPort (h : HostInput) (s : State) : State := if h.start then s.setRun .running else s

/-- A step in Idle: the load port and the start port act (00_scope.md R17, R18). -/
def idleStep (h : HostInput) (s : State) : State := startPort h (loadPort h s)

/-- Status port `halted` (00_scope.md R20). -/
def State.haltedPort (s : State) : Bool := decide (s.run = .halted)

/-- Status port `faulted` (00_scope.md R20). -/
def State.faultedPort (s : State) : Bool := decide (s.run = .faulted)

/-- The host's inputs that load an image from address `a` upward, one byte a step (70_reset_and_hazards.md R126). No input
loads a byte whose address would be above 255: an image that is too long has no address for it (R129), and it never wraps to
address 0 (91_not_in_source.md N23). DESIGN CHOICE, safe: see log entry 15. -/
def loadScript : Nat → List Byte → List HostInput
  | _, [] => []
  | a, v :: vs =>
    if a < 256 then
      { HostInput.quiet with ldWe := true, ldAddr := BitVec.ofNat 8 a, ldData := v } :: loadScript (a + 1) vs
    else []

/-- The boot sequence of 70_reset_and_hazards.md R126: assert `rst`, load the image from address 0, pulse `start`. -/
def bootScript (image : List Byte) : List HostInput :=
  { HostInput.quiet with rst := true } :: loadScript 0 image ++ [{ HostInput.quiet with start := true }]

end Sys2Proof.Machine
end

