-- ==== Sys2Proof/Machine/Flags.lean ====
section
/-!
DEFINITION. The Equal flag, the only flag of the core (10_state.md R30; 30_encoding.md R86): its computation, its write,
and the two conditions that read it.
-/

namespace Sys2Proof.Machine

/-- `x == y`, the flag update of COMPARE (41_register_alu.md R89). -/
def equalFlag (x y : Byte) : Bool := decide (x = y)

/-- `E <- v`. -/
def State.setE (s : State) (v : Bool) : State := { s with e := v }

/-- Apply the ALU's flag update; an operation without one leaves E (30_encoding.md R86). -/
def writeFlag (u : Option Bool) (s : State) : State :=
  match u with
  | none => s
  | some v => s.setE v

/-- The condition of JEQ (43_control_transfer.md R102). -/
def takenIfEqual (s : State) : Bool := s.e

/-- The condition of JNE (43_control_transfer.md R103). -/
def takenIfNotEqual (s : State) : Bool := !s.e

end Sys2Proof.Machine
end

