-- ==== Sys2Proof/Machine/Operands.lean ====
section
/-!
DEFINITION. The operand forms (30_encoding.md R62 to R65): a register operand, read or written, and the stack as the
implicit operand. The immediate of LDI is its operand byte as it stands (R65).
-/

namespace Sys2Proof.Machine

/-- The register a whole operand byte names; above 7 it raises InvalidRegister (30_encoding.md R64). -/
def regIndex (i : Byte) : Except FaultCause (Fin 8) :=
  if h : i.toNat < 8 then .ok ⟨i.toNat, h⟩ else .error (.invalidRegister i)

/-- `RegRead(i)` (10_state.md R24). -/
def regRead (i : Byte) (s : State) : Except FaultCause Byte := do
  let r ← regIndex i
  .ok (s.reg r)

/-- `RegWrite(i, v)` (10_state.md R25). -/
def regWrite (i : Byte) (v : Byte) (s : State) : Except FaultCause State := do
  let r ← regIndex i
  .ok (s.setReg r v)

/-- `PC <- RegRead(a)`, the effect of a taken jump (43_control_transfer.md R101 to R103). -/
def jumpToReg (a : Byte) (s : State) : Except FaultCause State := do
  let t ← regRead a s
  .ok (s.setPc (byteToPc t))

end Sys2Proof.Machine
end

