-- ==== Sys2Proof/Machine/Alu.lean ====
section
/-!
DEFINITION. The ALU (41_register_alu.md R89 to R91) and what every ALU instruction does with it.
-/

namespace Sys2Proof.Machine

/-- The tag of ADD (41_register_alu.md R90). -/
def tagAdd : BitVec 2 := 0#2

/-- The tag of MULTIPLY (41_register_alu.md R90). -/
def tagMultiply : BitVec 2 := 1#2

/-- The tag of COMPARE (41_register_alu.md R90). -/
def tagCompare : BitVec 2 := 2#2

/-- `ALU(tag, x, y)` (41_register_alu.md R89): the exact sum or product, its low 8 bits kept. Another tag raises
UnsupportedOperation (R90). -/
def alu (tag : BitVec 2) (x y : Byte) : Except FaultCause AluOut :=
  if tag = tagAdd then .ok { result := some (BitVec.ofNat 8 (x.toNat + y.toNat)), flagUpdate := none }
  else if tag = tagMultiply then .ok { result := some (BitVec.ofNat 8 (x.toNat * y.toNat)), flagUpdate := none }
  else if tag = tagCompare then .ok { result := none, flagUpdate := some (equalFlag x y) }
  else .error (.unsupportedOperation tag)

/-- The result of the ALU goes to register A; an operation without one writes no register (41_register_alu.md R91). -/
def writeResult (a : Byte) (r : Option Byte) (s : State) : Except FaultCause State :=
  match r with
  | none => .ok s
  | some v => regWrite a v s

/-- An ALU instruction: read both registers, A first, compute, write the result and the flag (41_register_alu.md R93 to
R95), and advance by 3. -/
def aluInstr (tag : BitVec 2) (a b : Byte) (s : State) : Except FaultCause State := do
  let x ← regRead a s
  let y ← regRead b s
  let o ← alu tag x y
  let s ← writeResult a o.result s
  .ok ((writeFlag o.flagUpdate s).advance 3)

end Sys2Proof.Machine
end

