-- ==== Sys2Proof/Machine/Arithmetic.lean ====
section
/-!
DEFINITION. LDI, ADD, MUL and CMP (41_register_alu.md).
-/

namespace Sys2Proof.Machine

/-- LDI a, imm (41_register_alu.md R92). -/
def execLdi (a imm : Byte) (s : State) : Outcome := commit s do
  let s ← regWrite a imm s
  .ok (s.advance 3)

/-- ADD a, b (41_register_alu.md R93). -/
def execAdd (a b : Byte) (s : State) : Outcome := commit s (aluInstr tagAdd a b s)

/-- MUL a, b (41_register_alu.md R94). -/
def execMul (a b : Byte) (s : State) : Outcome := commit s (aluInstr tagMultiply a b s)

/-- CMP a, b (41_register_alu.md R95). -/
def execCmp (a b : Byte) (s : State) : Outcome := commit s (aluInstr tagCompare a b s)

end Sys2Proof.Machine
end

