-- ==== Sys2Proof/Machine/Control.lean ====
section
/-!
DEFINITION. CALL, RET, JMP, JEQ and JNE (43_control_transfer.md).
-/

namespace Sys2Proof.Machine

/-- The return address `p + 2` as a byte; 256 does not fit and raises OutOfBounds (43_control_transfer.md R98). -/
def returnAddress (s : State) : Except FaultCause Byte :=
  if s.pc.toNat + 2 > 255 then .error (.outOfBounds ((s.pc.toNat : Int) + 2))
  else .ok (BitVec.ofNat 8 (s.pc.toNat + 2))

/-- CALL a (43_control_transfer.md R98): register a is read after the push. -/
def execCall (a : Byte) (s : State) : Outcome := commit s do
  let r ← returnAddress s
  let s ← push r s
  jumpToReg a s

/-- RET (43_control_transfer.md R99). -/
def execRet (s : State) : Outcome := commit s do
  let (v, s) ← pop s
  .ok (s.setPc (byteToPc v))

/-- JMP a (43_control_transfer.md R101). -/
def execJmp (a : Byte) (s : State) : Outcome := commit s (jumpToReg a s)

/-- A conditional jump: the register is read only when it is taken (43_control_transfer.md R102, R103). -/
def jumpIf (taken : Bool) (a : Byte) (s : State) : Except FaultCause State :=
  if taken then jumpToReg a s else .ok (s.advance 2)

/-- JEQ a (43_control_transfer.md R102). -/
def execJeq (a : Byte) (s : State) : Outcome := commit s (jumpIf (takenIfEqual s) a s)

/-- JNE a (43_control_transfer.md R103). -/
def execJne (a : Byte) (s : State) : Outcome := commit s (jumpIf (takenIfNotEqual s) a s)

end Sys2Proof.Machine
end

