-- ==== Sys2Proof/Machine/Stack.lean ====
section
/-!
DEFINITION. PUSH and POP (42_stack.md).
-/

namespace Sys2Proof.Machine

/-- PUSH a (42_stack.md R96): the register is read before SP moves. -/
def execPush (a : Byte) (s : State) : Outcome := commit s do
  let v ← regRead a s
  let s ← push v s
  .ok (s.advance 2)

/-- POP a (42_stack.md R97): register a is written after SP moves, so POP R7 keeps the popped byte. -/
def execPop (a : Byte) (s : State) : Outcome := commit s do
  let (v, s) ← pop s
  let s ← regWrite a v s
  .ok (s.advance 2)

end Sys2Proof.Machine
end

