-- ==== Sys2Proof/Machine/System.lean ====
section
/-!
DEFINITION. HLT and PRN (40_system.md).
-/

namespace Sys2Proof.Machine

/-- HLT (40_system.md R87). -/
def execHlt (s : State) : Outcome := commit s (.ok ((s.advance 1).setRun .halted))

/-- PRN a (40_system.md R88). -/
def execPrn (a : Byte) (s : State) : Outcome := commit s do
  let v ← regRead a s
  .ok ((emit v s).advance 2)

end Sys2Proof.Machine
end

