-- ==== Sys2Proof/Syntax.lean ====
section
/-!
DEFINITION. The instructions: one constructor per row of spec/opcode_table.json (30_encoding.md R66).
An operand is the whole operand byte: a register index is not masked and may exceed 7 (R64, R71), and the immediate
of LDI is not extended (R65).
-/

namespace Sys2Proof

/-- The 13 instructions, in the order of 30_encoding.md R66. `a` is operand_a and `b` is operand_b. -/
inductive Instr where
  /-- 40_system.md R87. -/
  | hlt
  /-- 43_control_transfer.md R99. -/
  | ret
  /-- 40_system.md R88. -/
  | prn (a : Byte)
  /-- 42_stack.md R96. -/
  | push (a : Byte)
  /-- 42_stack.md R97. -/
  | pop (a : Byte)
  /-- 43_control_transfer.md R98. -/
  | call (a : Byte)
  /-- 41_register_alu.md R92. -/
  | ldi (a imm : Byte)
  /-- 41_register_alu.md R93. -/
  | add (a b : Byte)
  /-- 41_register_alu.md R94. -/
  | mul (a b : Byte)
  /-- 43_control_transfer.md R101. -/
  | jmp (a : Byte)
  /-- 43_control_transfer.md R102. -/
  | jeq (a : Byte)
  /-- 43_control_transfer.md R103. -/
  | jne (a : Byte)
  /-- 41_register_alu.md R95. -/
  | cmp (a b : Byte)
  deriving DecidableEq, Repr

end Sys2Proof
end

