-- ==== Sys2Proof/Decode.lean ====
section
/-!
DEFINITION. The encoding: the opcode table (30_encoding.md R66), the decoder, total on any bytes, and the encoder.
-/

namespace Sys2Proof

/-- The instruction formats of 30_encoding.md R61 to R63, each with the instruction its operand bytes make. -/
inductive Format where
  /-- R61: the opcode alone. -/
  | f1 (i : Instr)
  /-- R62: the opcode and operand_a. -/
  | f2 (mk : Byte → Instr)
  /-- R63, form F3-RI: the opcode, operand_a and an immediate. -/
  | f3RI (mk : Byte → Byte → Instr)
  /-- R63, form F3-RR: the opcode, operand_a and operand_b. -/
  | f3RR (mk : Byte → Byte → Instr)

/-- The length in bytes (30_encoding.md R60). -/
def Format.length : Format → Nat
  | .f1 _ => 1
  | .f2 _ => 2
  | .f3RI _ => 3
  | .f3RR _ => 3

/-- The opcode table of 30_encoding.md R66, row by row. -/
def opcodeTable : List (Byte × Format) :=
  [ (0x01#8, .f1 .hlt),
    (0x11#8, .f1 .ret),
    (0x47#8, .f2 .prn),
    (0x45#8, .f2 .push),
    (0x46#8, .f2 .pop),
    (0x50#8, .f2 .call),
    (0x82#8, .f3RI .ldi),
    (0xA0#8, .f3RR .add),
    (0xA2#8, .f3RR .mul),
    (0x54#8, .f2 .jmp),
    (0x55#8, .f2 .jeq),
    (0x56#8, .f2 .jne),
    (0xA7#8, .f3RR .cmp) ]

/-- Find an opcode in a table. All 8 bits are compared (30_encoding.md R66, R70). -/
def findFormat (op : Byte) : List (Byte × Format) → Option Format
  | [] => none
  | (b, f) :: rows => if b = op then some f else findFormat op rows

/-- The format of an opcode byte; `none` for the 243 illegal ones (30_encoding.md R70, R81). -/
def formatOf (op : Byte) : Option Format := findFormat op opcodeTable

/-- Why a list of bytes holds no instruction at its start. -/
inductive DecodeError where
  /-- There is no opcode byte. -/
  | noOpcode
  /-- The opcode is not in the table (30_encoding.md R70). -/
  | illegalOpcode (op : Byte)
  /-- The list ends before operand_a. -/
  | missingOperandA (op : Byte)
  /-- The list ends before operand_b. -/
  | missingOperandB (op : Byte)
  deriving DecidableEq, Repr

/-- Take the operand bytes a format needs; the bytes after them are not part of the instruction
(30_encoding.md R68, R72). `op` only names the instruction in an error. -/
def takeOperands (op : Byte) : Format → List Byte → Except DecodeError (Instr × List Byte)
  | .f1 i, rest => .ok (i, rest)
  | .f2 _, [] => .error (.missingOperandA op)
  | .f2 mk, a :: rest => .ok (mk a, rest)
  | .f3RI _, [] => .error (.missingOperandA op)
  | .f3RI _, [_] => .error (.missingOperandB op)
  | .f3RI mk, a :: b :: rest => .ok (mk a b, rest)
  | .f3RR _, [] => .error (.missingOperandA op)
  | .f3RR _, [_] => .error (.missingOperandB op)
  | .f3RR mk, a :: b :: rest => .ok (mk a b, rest)

/-- Decode the instruction at the start of a list of bytes, lowest address first (30_encoding.md R60, R66, R70). -/
def decode : List Byte → Except DecodeError (Instr × List Byte)
  | [] => .error .noOpcode
  | op :: rest =>
    match formatOf op with
    | none => .error (.illegalOpcode op)
    | some f => takeOperands op f rest

/-! The encoder, written from the same table. -/

/-- The opcode of an instruction: the hexadecimal column of 30_encoding.md R66. -/
def Instr.opcode : Instr → Byte
  | .hlt => 0x01#8
  | .ret => 0x11#8
  | .prn _ => 0x47#8
  | .push _ => 0x45#8
  | .pop _ => 0x46#8
  | .call _ => 0x50#8
  | .ldi _ _ => 0x82#8
  | .add _ _ => 0xA0#8
  | .mul _ _ => 0xA2#8
  | .jmp _ => 0x54#8
  | .jeq _ => 0x55#8
  | .jne _ => 0x56#8
  | .cmp _ _ => 0xA7#8

/-- The operand bytes of an instruction in address order (20_memory.md R40). -/
def Instr.operandBytes : Instr → List Byte
  | .hlt => []
  | .ret => []
  | .prn a => [a]
  | .push a => [a]
  | .pop a => [a]
  | .call a => [a]
  | .ldi a imm => [a, imm]
  | .add a b => [a, b]
  | .mul a b => [a, b]
  | .jmp a => [a]
  | .jeq a => [a]
  | .jne a => [a]
  | .cmp a b => [a, b]

/-- The length column of 30_encoding.md R66. -/
def Instr.length : Instr → Nat
  | .hlt => 1
  | .ret => 1
  | .prn _ => 2
  | .push _ => 2
  | .pop _ => 2
  | .call _ => 2
  | .ldi _ _ => 3
  | .add _ _ => 3
  | .mul _ _ => 3
  | .jmp _ => 2
  | .jeq _ => 2
  | .jne _ => 2
  | .cmp _ _ => 3

/-- The bytes of an instruction, lowest address first. -/
def encode (i : Instr) : List Byte := i.opcode :: i.operandBytes

/-! The numbering of spec/opcode_table.json: byte k of an instruction is bits 8k + 7 to 8k of a number. -/

/-- The three bytes of a table word of `nbits` bits, first byte first; the bits from `nbits` up are 0. -/
def tableBytes (nbits w : Nat) : List Byte :=
  [BitVec.ofNat 8 (w % 2 ^ nbits), BitVec.ofNat 8 (w % 2 ^ nbits / 256), BitVec.ofNat 8 (w % 2 ^ nbits / 65536)]

/-- What the decoder reads from an instruction whose bits are `w`, numbered as the opcode table numbers them. -/
def decodeTableWord (nbits w : Nat) : Option Instr :=
  match decode (tableBytes nbits w) with
  | .ok (i, _) => some i
  | .error _ => none

end Sys2Proof
end

