-- ==== Sys2Proof/Machine/Fetch.lean ====
section
/-!
DEFINITION. The fetch under both policies (30_encoding.md R79, R80).
-/

namespace Sys2Proof.Machine

/-- `Fetch(p)` with `FETCH_POLICY = BoundsAware` (30_encoding.md R79): the opcode, the lookup, then only the operand
bytes the length needs. -/
def fetchBoundsAware (p : Nat) (s : State) : Except FaultCause Instr := do
  let op ← memRead p s
  match formatOf op with
  | none => .error (.illegalInstruction op)
  | some (.f1 i) => .ok i
  | some (.f2 mk) =>
    let a ← memRead (p + 1) s
    .ok (mk a)
  | some (.f3RI mk) =>
    let a ← memRead (p + 1) s
    let b ← memRead (p + 2) s
    .ok (mk a b)
  | some (.f3RR mk) =>
    let a ← memRead (p + 1) s
    let b ← memRead (p + 2) s
    .ok (mk a b)

/-- `Fetch(p)` with `FETCH_POLICY = StrictThree` (30_encoding.md R80): three bytes, then the lookup. -/
def fetchStrictThree (p : Nat) (s : State) : Except FaultCause Instr := do
  let op ← memRead p s
  let a ← memRead (p + 1) s
  let b ← memRead (p + 2) s
  match formatOf op with
  | none => .error (.illegalInstruction op)
  | some (.f1 i) => .ok i
  | some (.f2 mk) => .ok (mk a)
  | some (.f3RI mk) => .ok (mk a b)
  | some (.f3RR mk) => .ok (mk a b)

/-- The fetch at an address under a policy. -/
def fetchAt (policy : FetchPolicy) (p : Nat) (s : State) : Except FaultCause Instr :=
  match policy with
  | .boundsAware => fetchBoundsAware p s
  | .strictThree => fetchStrictThree p s

/-- The fetch of the next instruction: at pc (30_encoding.md R77). -/
def fetch (policy : FetchPolicy) (s : State) : Except FaultCause Instr := fetchAt policy s.pc.toNat s

/-- The bytes of memory from an address up, at most n of them and none past 255: what a decoder of byte lists reads. -/
def bytesFrom (s : State) : Nat → Nat → List Byte
  | _, 0 => []
  | p, n + 1 => if p < 256 then s.mem.read p :: bytesFrom s (p + 1) n else []

end Sys2Proof.Machine
end

