-- ==== Sys2Proof/Machine/Cycle.lean ====
section
/-!
DEFINITION. One step of the machine for given parameters: the host's inputs, then one instruction while Running.
-/

namespace Sys2Proof.Machine

/-- One architectural step of a Running core (30_encoding.md R77): fetch, execute; a fault of the fetch is taken. -/
def runInstruction (policy : FetchPolicy) (s : State) : Outcome :=
  match fetch policy s with
  | .error c => .next (faultEntry c s)
  | .ok i => exec i s

/-- One step (00_scope.md R16 to R18; 10_state.md R32; 30_encoding.md R76, R77). `rst` comes first; in Idle the load and
start ports act; in Running one instruction runs; in Halted and Faulted nothing does. -/
def cycle (c : Config) (s : State) : Outcome :=
  if s.input.rst then .next (afterRst c s)
  else
    match s.run with
    | .idle => .next (idleStep s.input s.beginStep)
    | .running => runInstruction c.fetchPolicy s.beginStep
    | .halted => .next s.beginStep
    | .faulted => .next s.beginStep

/-- Place an instruction's bytes at pc and let the next step run it: Running, and no `rst` in the coming step. -/
def placeInstruction (bytes : List Byte) (s : State) : State :=
  { s with
    mem := s.mem.writeBytes s.pc.toNat bytes
    run := .running
    inputs := s.inputs.dropWhile (·.rst) }

end Sys2Proof.Machine
end

