-- ==== Sys2Proof/Machine/Step.lean ====
section
/-!
DEFINITION. The step of the machine the spec describes, and the placing of one instruction for its next step.
-/

namespace Sys2Proof.Machine

/-- The step of a machine with given parameters (92_eei_decisions.md, the named parameters). -/
def stepWith (c : Config) (s : State) : Host.Outcome State Fault Refusal := cycle c s

/-- The step, with the parameters this spec takes (00_scope.md R9, R11, R12). -/
def step (s : State) : Host.Outcome State Fault Refusal := stepWith Config.spec s

/-- `s` with a table word's instruction stored at pc and the core Running, as loading and `start` leave it
(70_reset_and_hazards.md R126; log entry 5). -/
def State.withFetchWord (s : State) (nbits w : Nat) : State := placeInstruction (tableBytes nbits w) s

end Sys2Proof.Machine
end

