-- ==== Sys2Proof/Machine/Datapath.lean ====
section
/-!
DEFINITION. The datapath of the block (30_encoding.md R82 to R86): the decoder's control outputs, and one execution unit
driven by them alone. It is a second description of the instructions; the machine's step uses the instruction rules
(R82's section: "the instruction rule governs"), and an obligation states that the two agree.
-/

namespace Sys2Proof.Machine

/-- The unit column of 30_encoding.md R82. -/
inductive ExecUnit where
  | control | branch | output | stack | register | alu
  deriving DecidableEq, Repr

/-- When the read port A is enabled (30_encoding.md R82, column "reg read A"). -/
inductive ReadA where
  | no | yes | afterPush | ifEqual | ifNotEqual
  deriving DecidableEq, Repr

/-- What the write port A is given (30_encoding.md R82, column "reg write A"). -/
inductive WriteA where
  | no | popped | imm | result
  deriving DecidableEq, Repr

/-- The stack operation (30_encoding.md R82, column "stack op"). -/
inductive StackOp where
  | none | pop | pushA | pushReturn
  deriving DecidableEq, Repr

/-- The source of the next pc (30_encoding.md R82, column "next pc"; R85). -/
inductive NextPc where
  | sequential | popped | regA | regAIfEqual | regAIfNotEqual
  deriving DecidableEq, Repr

/-- The decoder's outputs for one opcode (30_encoding.md R82). -/
structure Control where
  length : Nat
  unit : ExecUnit
  aluTag : Option (BitVec 2)
  readA : ReadA
  readB : Bool
  writeA : WriteA
  flagWrite : Bool
  stackOp : StackOp
  nextPc : NextPc
  run : RunState
  deriving DecidableEq, Repr

/-- The rows of 30_encoding.md R82, by opcode. -/
def controlTable : List (Byte × Control) :=
  [ (0x01#8, ⟨1, .control, none, .no, false, .no, false, .none, .sequential, .halted⟩),
    (0x11#8, ⟨1, .branch, none, .no, false, .no, false, .pop, .popped, .running⟩),
    (0x47#8, ⟨2, .output, none, .yes, false, .no, false, .none, .sequential, .running⟩),
    (0x45#8, ⟨2, .stack, none, .yes, false, .no, false, .pushA, .sequential, .running⟩),
    (0x46#8, ⟨2, .stack, none, .no, false, .popped, false, .pop, .sequential, .running⟩),
    (0x50#8, ⟨2, .branch, none, .afterPush, false, .no, false, .pushReturn, .regA, .running⟩),
    (0x82#8, ⟨3, .register, none, .no, false, .imm, false, .none, .sequential, .running⟩),
    (0xA0#8, ⟨3, .alu, some 0#2, .yes, true, .result, false, .none, .sequential, .running⟩),
    (0xA2#8, ⟨3, .alu, some 1#2, .yes, true, .result, false, .none, .sequential, .running⟩),
    (0xA7#8, ⟨3, .alu, some 2#2, .yes, true, .no, true, .none, .sequential, .running⟩),
    (0x54#8, ⟨2, .branch, none, .yes, false, .no, false, .none, .regA, .running⟩),
    (0x55#8, ⟨2, .branch, none, .ifEqual, false, .no, false, .none, .regAIfEqual, .running⟩),
    (0x56#8, ⟨2, .branch, none, .ifNotEqual, false, .no, false, .none, .regAIfNotEqual, .running⟩) ]

/-- Find an opcode among the rows. -/
def findControl (op : Byte) : List (Byte × Control) → Option Control
  | [] => none
  | (b, k) :: rows => if b = op then some k else findControl op rows

/-- The decoder's outputs; `none` is its output `illegal` (30_encoding.md R82, last line). -/
def controlOf (op : Byte) : Option Control := findControl op controlTable

/-- Read a register through a port if the port is enabled; a disabled port checks nothing (30_encoding.md R83). -/
def portRead (enabled : Bool) (i : Byte) (s : State) : Except FaultCause (Option Byte) :=
  if enabled then do
    let v ← regRead i s
    .ok (some v)
  else .ok none

/-- Whether port A is read before the stack operation (30_encoding.md R82). -/
def ReadA.beforeStack (r : ReadA) (e : Bool) : Bool :=
  match r with
  | .no => false
  | .yes => true
  | .afterPush => false
  | .ifEqual => e
  | .ifNotEqual => !e

/-- Drive the ALU with the decoder's tag (41_register_alu.md R90). -/
def aluUnit (tag : Option (BitVec 2)) (x y : Option Byte) : Except FaultCause AluOut :=
  match tag with
  | none => .ok { result := none, flagUpdate := none }
  | some t => alu t (x.getD 0#8) (y.getD 0#8)

/-- The stack unit's operation: the popped byte, if there is one, and the state after it (30_encoding.md R84). -/
def stackUnit (op : StackOp) (x : Option Byte) (s : State) : Except FaultCause (Option Byte × State) :=
  match op with
  | .none => .ok (none, s)
  | .pop => do
    let (v, s) ← pop s
    .ok (some v, s)
  | .pushA => do
    let s ← push (x.getD 0#8) s
    .ok (none, s)
  | .pushReturn => do
    let r ← returnAddress s
    let s ← push r s
    .ok (none, s)

/-- What the write port A writes, if anything (30_encoding.md R82). -/
def WriteA.value (w : WriteA) (popped : Option Byte) (imm : Byte) (o : AluOut) : Option Byte :=
  match w with
  | .no => none
  | .popped => popped
  | .imm => some imm
  | .result => o.result

/-- The PC logic (30_encoding.md R85). -/
def pcLogic (k : Control) (x popped : Option Byte) (e : Bool) (s : State) : State :=
  match k.nextPc with
  | .sequential => s.advance k.length
  | .popped => s.setPc (byteToPc (popped.getD 0#8))
  | .regA => s.setPc (byteToPc (x.getD 0#8))
  | .regAIfEqual => if e then s.setPc (byteToPc (x.getD 0#8)) else s.advance k.length
  | .regAIfNotEqual => if e then s.advance k.length else s.setPc (byteToPc (x.getD 0#8))

/-- The output unit: PRN's value goes to the output port (00_scope.md R19). -/
def outputUnit (u : ExecUnit) (x : Option Byte) (s : State) : State :=
  match u, x with
  | .output, some v => emit v s
  | _, _ => s

/-- The EXECUTE phase driven by the decoder's outputs, with operand bytes a and b (30_encoding.md R78, R82 to R86). -/
def datapath (k : Control) (a b : Byte) (s : State) : Except FaultCause State := do
  let x ← portRead (k.readA.beforeStack s.e) a s
  let y ← portRead k.readB b s
  let o ← aluUnit k.aluTag x y
  let (popped, t) ← stackUnit k.stackOp x s
  let late ← portRead (decide (k.readA = .afterPush)) a t
  let t ← writeResult a (k.writeA.value popped b o) t
  let t := if k.flagWrite then writeFlag o.flagUpdate t else t
  let x := if k.readA = .afterPush then late else x
  .ok ((pcLogic k x popped s.e (outputUnit k.unit x t)).setRun k.run)

end Sys2Proof.Machine
end

