-- ==== Sys2Proof/Machine/Phases.lean ====
section
/-!
DEFINITION. The phases inside one instruction (30_encoding.md R78), with the bytes the decoder latches (10_state.md R35).
They are not architectural, so they stand outside State: a phase machine over a fixed start state, which answers the
instruction's outcome when it is done. The machine's step does not use it; an obligation states that the two agree.
-/

namespace Sys2Proof.Machine

/-- Where the instruction stands and what is latched so far (30_encoding.md R78). -/
inductive Phase where
  /-- `FETCH_OP`: read `M[pc]`. -/
  | fetchOp
  /-- `DECODE`: look the opcode up. -/
  | decode (op : Byte)
  /-- `FETCH_A`: read `M[pc+1]`. -/
  | fetchA (f : Format)
  /-- `FETCH_B`: read `M[pc+2]`. -/
  | fetchB (mk : Byte → Byte → Instr) (a : Byte)
  /-- `EXECUTE`. -/
  | execute (i : Instr)
  /-- The instruction has ended with this outcome. -/
  | done (o : Outcome)

/-- The next phase after a read of memory at an address: what the byte read leads to, or the fault entry. -/
def afterRead (s : State) (a : Int) (k : Byte → Phase) : Phase :=
  match memRead a s with
  | .error c => .done (.next (faultEntry c s))
  | .ok v => k v

/-- One phase of the instruction at pc, with `FETCH_POLICY = BoundsAware` (30_encoding.md R78, R79). -/
def phaseStep (s : State) : Phase → Phase
  | .fetchOp => afterRead s s.pc.toNat .decode
  | .decode op =>
    match formatOf op with
    | none => .done (.next (faultEntry (.illegalInstruction op) s))
    | some (.f1 i) => .execute i
    | some f => .fetchA f
  | .fetchA (.f1 i) => .execute i
  | .fetchA (.f2 mk) => afterRead s (s.pc.toNat + 1) fun a => .execute (mk a)
  | .fetchA (.f3RI mk) => afterRead s (s.pc.toNat + 1) (.fetchB mk)
  | .fetchA (.f3RR mk) => afterRead s (s.pc.toNat + 1) (.fetchB mk)
  | .fetchB mk a => afterRead s (s.pc.toNat + 2) fun b => .execute (mk a b)
  | .execute i => .done (exec i s)
  | .done o => .done o

/-- Run n phases. -/
def runPhases (s : State) : Nat → Phase → Phase
  | 0, ph => ph
  | n + 1, ph => runPhases s n (phaseStep s ph)

end Sys2Proof.Machine
end

