-- ==== Sys2Proof/Safety.lean ====
section
/-!
DEFINITION. What a good state is and how a run ends, in the terms the statements use.
-/

namespace Sys2Proof.Machine

/-- The invariant of every reachable state: memory in canonical form, pc and fault_pc in 0 to 256 (10_state.md R27;
60_exceptions.md R104), a fault code exactly in Faulted, of a cause that an instruction can raise (60_exceptions.md R104,
R108), and a blank fault record before a fault (10_state.md R33). -/
structure Inv (s : State) : Prop where
  mem_wf : s.mem.wf = true
  pc_le : s.pc.toNat ≤ 256
  faultPc_le : s.faultPc.toNat ≤ 256
  code_le : s.faultCode.toNat ≤ 3
  code_iff : s.faultCode = 0#3 ↔ s.run ≠ .faulted
  blank : s.run ≠ .faulted → s.faultInfo = 0#16 ∧ s.faultPc = 0#9

/-- The coming step executes an instruction: the core is Running and `rst` is 0 (10_state.md R32; 00_scope.md R16). -/
def Executing (s : State) : Prop := s.run = .running ∧ s.input.rst = false

/-- Run state, fault record, output port, output trace and the host's inputs are as before. -/
structure SameControl (s t : State) : Prop where
  run : t.run = s.run
  faultCode : t.faultCode = s.faultCode
  faultInfo : t.faultInfo = s.faultInfo
  faultPc : t.faultPc = s.faultPc
  outPort : t.outPort = s.outPort
  out : t.out = s.out
  inputs : t.inputs = s.inputs

/-- Every byte of memory reads as before. -/
def SameMemory (s t : State) : Prop := ∀ a : Nat, t.mem.read a = s.mem.read a

/-- The state after taking a fault from s, for some cause (60_exceptions.md R111). -/
def TookFault (s t : State) : Prop := ∃ c, t = faultEntry c s

/-- Run n steps with given parameters, stopping at a fault or refusal of the model. -/
def runSteps (c : Config) : Nat → State → Outcome
  | 0, s => .next s
  | n + 1, s =>
    match stepWith c s with
    | .next t => runSteps c n t
    | .fault f => .fault f
    | .refused r => .refused r

/-- The run has ended with success (60_exceptions.md R121). -/
def Succeeded (s : State) : Prop := s.run = .halted

/-- The run has ended with failure (60_exceptions.md R121). -/
def Failed (s : State) : Prop := s.run = .faulted

/-- The state a model starts a run from, for an image of bytes placed from address 0 (70_reset_and_hazards.md R128);
bytes of an image beyond 256 are dropped (log entry 15). -/
def launch (c : Config) (image : List Byte) : State :=
  { State.resetWith c with mem := Memory.writeBytes [] 0 image, run := .running }

end Sys2Proof.Machine
end

