-- ==== Sys2Proof/WellFormed.lean ====
section
/-!
DEFINITION. Well-formed instructions: every register operand names one of R0 to R7 (10_state.md R22, R73's syntax).
An ill-formed one is still a legal encoding that the decoder accepts (30_encoding.md R71); the machine raises
InvalidRegister when such a register is read or written (R64), so the machine's meanings do not assume this check.
-/

namespace Sys2Proof

/-- The operand byte names a register: 0 to 7 (30_encoding.md R64). -/
def namesRegister (a : Byte) : Bool := decide (a.toNat < 8)

/-- Every register operand names a register. -/
def Instr.wellFormed : Instr → Bool
  | .hlt => true
  | .ret => true
  | .prn a => namesRegister a
  | .push a => namesRegister a
  | .pop a => namesRegister a
  | .call a => namesRegister a
  | .ldi a _ => namesRegister a
  | .add a b => namesRegister a && namesRegister b
  | .mul a b => namesRegister a && namesRegister b
  | .jmp a => namesRegister a
  | .jeq a => namesRegister a
  | .jne a => namesRegister a
  | .cmp a b => namesRegister a && namesRegister b

end Sys2Proof
end

