-- ==== Sys2Proof/Certificates/Slice0/Obligations.lean ====
section
/-!
DEFINITION. The statements about the core. Each docstring names the rules of spec/ it formalises. In a statement about
`exec`, `s` is the state in which the instruction starts, so `s.pc` is the address p of the instruction (10_state.md R27).
-/

open Sys2Proof Sys2Proof.Machine

/-! ## Encoding -/

/-- One word of each format and family, written out from the binary column of 30_encoding.md R66 and the operand columns of
R61 to R63: HLT, RET, PRN R2, PUSH R3, CALL R1, LDI R5 0xAB, ADD R1 R2, CMP R6 R7. -/
def Obligations.WrittenWordsDecode : Prop :=
  decode [0b00000001#8] = .ok (.hlt, []) ∧
  decode [0b00010001#8] = .ok (.ret, []) ∧
  decode [0b01000111#8, 0b00000010#8] = .ok (.prn 2#8, []) ∧
  decode [0b01000101#8, 0b00000011#8] = .ok (.push 3#8, []) ∧
  decode [0b01010000#8, 0b00000001#8] = .ok (.call 1#8, []) ∧
  decode [0b10000010#8, 0b00000101#8, 0b10101011#8] = .ok (.ldi 5#8 0xAB#8, []) ∧
  decode [0b10100000#8, 0b00000001#8, 0b00000010#8] = .ok (.add 1#8 2#8, []) ∧
  decode [0b10100111#8, 0b00000110#8, 0b00000111#8] = .ok (.cmp 6#8 7#8, [])

/-- Decoding the encoding of any instruction, every operand byte free and any bytes behind it, gives the instruction back
and leaves the bytes behind it (30_encoding.md R60 to R66, R68, R71). -/
def Obligations.DecodeInvertsEncode : Prop :=
  ∀ (i : Instr) (rest : List Byte), decode (encode i ++ rest) = .ok (i, rest)

/-- Whatever decodes is the encoding of the instruction read, followed by the bytes left: each instruction has one
encoding and no bit of it is dropped (30_encoding.md R66, R70, R71). -/
def Obligations.EncodeInvertsDecode : Prop :=
  ∀ (bytes rest : List Byte) (i : Instr), decode bytes = .ok (i, rest) → bytes = encode i ++ rest

/-- Bits [7:6] of an opcode are the length minus 1, bit [5] marks ADD, MUL and CMP, bit [4] marks RET, CALL, JMP, JEQ and JNE:
the bit clauses are the spec's own inference from the table (30_encoding.md R67, derived there from R66), not a rule of the
source. The last clause: these bits do not decode a byte that is not in the table (30_encoding.md R67, R70). -/
def Obligations.OpcodeBitsAreConsistent : Prop :=
  (∀ i : Instr,
    (i.opcode >>> 6).toNat + 1 = i.length ∧
    (i.opcode.getLsbD 5 = true ↔ (∃ a b, i = .add a b) ∨ (∃ a b, i = .mul a b) ∨ (∃ a b, i = .cmp a b)) ∧
    (i.opcode.getLsbD 4 = true ↔
      i = .ret ∨ (∃ a, i = .call a) ∨ (∃ a, i = .jmp a) ∨ (∃ a, i = .jeq a) ∨ (∃ a, i = .jne a))) ∧
  ∀ (op : Byte) (rest : List Byte), (∀ i : Instr, i.opcode ≠ op) → decode (op :: rest) = .error (.illegalOpcode op)

/-! ## Fetch and step -/

/-- 30_encoding.md R79 (with R70): the BoundsAware fetch at p. At 256 it faults; an opcode that no instruction has faults
before an operand is read; an instruction whose bytes all stand in memory is fetched; one that reaches past 255 faults at 256. -/
def Obligations.BoundsAwareFetch : Prop :=
  ∀ (s : State) (p : Nat),
    (p = 256 → fetchAt .boundsAware p s = .error (.outOfBounds 256)) ∧
    (p < 256 → (∀ i : Instr, i.opcode ≠ s.mem.read p) →
      fetchAt .boundsAware p s = .error (.illegalInstruction (s.mem.read p))) ∧
    (∀ i : Instr, bytesFrom s p i.length = encode i → fetchAt .boundsAware p s = .ok i) ∧
    (∀ i : Instr, p < 256 → i.opcode = s.mem.read p → 256 < p + i.length →
      fetchAt .boundsAware p s = .error (.outOfBounds 256))

/-- 30_encoding.md R80: the StrictThree fetch. It differs from BoundsAware only at 254 and 255, where it always raises
OutOfBounds(256). -/
def Obligations.StrictThreeFetch : Prop :=
  ∀ (s : State) (p : Nat),
    (p ≤ 253 ∨ p = 256 → fetchAt .strictThree p s = fetchAt .boundsAware p s) ∧
    (p = 254 ∨ p = 255 → fetchAt .strictThree p s = .error (.outOfBounds 256))

/-- 30_encoding.md R68, R69: what is fetched at p depends on the instruction's own bytes alone. -/
def Obligations.FetchReadsOwnBytesOnly : Prop :=
  ∀ (s : State) (m : Memory) (p : Nat) (i : Instr),
    fetchAt .boundsAware p s = .ok i →
    (∀ k, k < i.length → m.read (p + k) = s.mem.read (p + k)) →
    fetchAt .boundsAware p { s with mem := m } = .ok i

/-- 30_encoding.md R77: while Running, if the bytes at pc decode to i, the step is exec of i. Around exec the step only
takes the host's input of this step and ends the output pulse of the step before (00_scope.md R19; log entries 1 and 3). -/
def Obligations.StepRunsDecodedInstruction : Prop :=
  ∀ (s : State) (i : Instr) (rest : List Byte), Executing s →
    decode (bytesFrom s s.pc.toNat 3) = .ok (i, rest) →
    step s = exec i { s with inputs := s.inputs.tail, outPort := none }

/-- 30_encoding.md R70 and 60_exceptions.md R106: under BoundsAware a Running core whose opcode byte is none of the 13
takes IllegalInstruction(opcode), whatever stands behind it; in particular 0x00 is no HLT. `beginStep` is the step's own part
(log entries 1 and 3). -/
def Obligations.IllegalOpcodeFaults : Prop :=
  ∀ (s : State), Executing s → s.pc.toNat < 256 →
    s.mem.read s.pc.toNat ∉
      [0x01#8, 0x11#8, 0x47#8, 0x45#8, 0x46#8, 0x50#8, 0x82#8, 0xA0#8, 0xA2#8, 0x54#8, 0x55#8, 0x56#8, 0xA7#8] →
    step s = .next (faultEntry (.illegalInstruction (s.mem.read s.pc.toNat)) s.beginStep)

/-! ## The instructions -/

/-- 40_system.md R87; the status port `halted` (00_scope.md R20) is 1 after it. -/
def Obligations.HltHalts : Prop :=
  encode .hlt = [0x01#8] ∧
  ∀ s : State, exec .hlt s = .next { s with pc := s.pc + 1#9, run := .halted } ∧
    ({ s with pc := s.pc + 1#9, run := .halted } : State).haltedPort = true

/-- 40_system.md R88. -/
def Obligations.PrnEmitsRegister : Prop :=
  (∀ a : Byte, encode (.prn a) = [0x47#8, a]) ∧
  ∀ (a : Byte) (s : State),
    (∀ h : a.toNat < 8, exec (.prn a) s =
      .next { s with outPort := some (s.reg ⟨a.toNat, h⟩), out := s.out ++ [s.reg ⟨a.toNat, h⟩], pc := s.pc + 2#9 }) ∧
    (8 ≤ a.toNat → exec (.prn a) s = .next (faultEntry (.invalidRegister a) s))

/-- 41_register_alu.md R92. -/
def Obligations.LdiLoadsImmediate : Prop :=
  (∀ a imm : Byte, encode (.ldi a imm) = [0x82#8, a, imm]) ∧
  ∀ (a imm : Byte) (s : State),
    (∀ h : a.toNat < 8, exec (.ldi a imm) s = .next { s.setReg ⟨a.toNat, h⟩ imm with pc := s.pc + 3#9 }) ∧
    (8 ≤ a.toNat → exec (.ldi a imm) s = .next (faultEntry (.invalidRegister a) s))

/-- 41_register_alu.md R93. -/
def Obligations.AddWritesSumModulo256 : Prop :=
  (∀ a b : Byte, encode (.add a b) = [0xA0#8, a, b]) ∧
  ∀ (a b : Byte) (s : State),
    (∀ (ha : a.toNat < 8) (hb : b.toNat < 8), exec (.add a b) s =
      .next { s.setReg ⟨a.toNat, ha⟩
                (BitVec.ofNat 8 (((s.reg ⟨a.toNat, ha⟩).toNat + (s.reg ⟨b.toNat, hb⟩).toNat) % 256)) with
              pc := s.pc + 3#9 }) ∧
    (8 ≤ a.toNat → exec (.add a b) s = .next (faultEntry (.invalidRegister a) s)) ∧
    (a.toNat < 8 → 8 ≤ b.toNat → exec (.add a b) s = .next (faultEntry (.invalidRegister b) s))

/-- 41_register_alu.md R94. -/
def Obligations.MulWritesProductModulo256 : Prop :=
  (∀ a b : Byte, encode (.mul a b) = [0xA2#8, a, b]) ∧
  ∀ (a b : Byte) (s : State),
    (∀ (ha : a.toNat < 8) (hb : b.toNat < 8), exec (.mul a b) s =
      .next { s.setReg ⟨a.toNat, ha⟩
                (BitVec.ofNat 8 (((s.reg ⟨a.toNat, ha⟩).toNat * (s.reg ⟨b.toNat, hb⟩).toNat) % 256)) with
              pc := s.pc + 3#9 }) ∧
    (8 ≤ a.toNat → exec (.mul a b) s = .next (faultEntry (.invalidRegister a) s)) ∧
    (a.toNat < 8 → 8 ≤ b.toNat → exec (.mul a b) s = .next (faultEntry (.invalidRegister b) s))

/-- 41_register_alu.md R95. -/
def Obligations.CmpSetsEqualFlag : Prop :=
  (∀ a b : Byte, encode (.cmp a b) = [0xA7#8, a, b]) ∧
  ∀ (a b : Byte) (s : State),
    (∀ (ha : a.toNat < 8) (hb : b.toNat < 8), exec (.cmp a b) s =
      .next { s with e := decide (s.reg ⟨a.toNat, ha⟩ = s.reg ⟨b.toNat, hb⟩), pc := s.pc + 3#9 }) ∧
    (8 ≤ a.toNat → exec (.cmp a b) s = .next (faultEntry (.invalidRegister a) s)) ∧
    (a.toNat < 8 → 8 ≤ b.toNat → exec (.cmp a b) s = .next (faultEntry (.invalidRegister b) s))

/-- 42_stack.md R96: register a is read before SP moves, so PUSH R7 pushes the old SP. -/
def Obligations.PushStoresBelowStackPointer : Prop :=
  (∀ a : Byte, encode (.push a) = [0x45#8, a]) ∧
  ∀ (a : Byte) (s : State),
    (∀ h : a.toNat < 8, s.reg 7 ≠ 0x00#8 → exec (.push a) s =
      .next { s.setReg 7 (s.reg 7 - 1#8) with
              mem := s.mem.write ((s.reg 7).toNat - 1) (s.reg ⟨a.toNat, h⟩), pc := s.pc + 2#9 }) ∧
    (8 ≤ a.toNat → exec (.push a) s = .next (faultEntry (.invalidRegister a) s)) ∧
    (a.toNat < 8 → s.reg 7 = 0x00#8 → exec (.push a) s = .next (faultEntry (.outOfBounds (-1)) s))

/-- 42_stack.md R97: SP moves first and register a is written after it, so POP R7 leaves the popped byte in SP. -/
def Obligations.PopLoadsFromStackPointer : Prop :=
  (∀ a : Byte, encode (.pop a) = [0x46#8, a]) ∧
  ∀ (a : Byte) (s : State),
    (∀ h : a.toNat < 8, s.reg 7 ≠ 0xFF#8 → exec (.pop a) s =
      .next { (s.setReg 7 (s.reg 7 + 1#8)).setReg ⟨a.toNat, h⟩ (s.mem.read (s.reg 7).toNat) with pc := s.pc + 2#9 }) ∧
    (s.reg 7 = 0xFF#8 → exec (.pop a) s = .next (faultEntry (.outOfBounds 256) s)) ∧
    (s.reg 7 ≠ 0xFF#8 → 8 ≤ a.toNat → exec (.pop a) s = .next (faultEntry (.invalidRegister a) s))

/-- 43_control_transfer.md R98: the target is read after the push, so CALL R7 jumps to the slot just written. The faults
come in the order return address, push, register. -/
def Obligations.CallPushesReturnAddress : Prop :=
  (∀ a : Byte, encode (.call a) = [0x50#8, a]) ∧
  ∀ (a : Byte) (s : State),
    (∀ h : a.toNat < 8, s.pc.toNat + 2 ≤ 255 → s.reg 7 ≠ 0x00#8 → exec (.call a) s =
      .next { s.setReg 7 (s.reg 7 - 1#8) with
              mem := s.mem.write ((s.reg 7).toNat - 1) (BitVec.ofNat 8 (s.pc.toNat + 2)),
              pc := ((s.setReg 7 (s.reg 7 - 1#8)).reg ⟨a.toNat, h⟩).setWidth 9 }) ∧
    (255 < s.pc.toNat + 2 → exec (.call a) s = .next (faultEntry (.outOfBounds (s.pc.toNat + 2 : Nat)) s)) ∧
    (s.pc.toNat + 2 ≤ 255 → s.reg 7 = 0x00#8 → exec (.call a) s = .next (faultEntry (.outOfBounds (-1)) s)) ∧
    (s.pc.toNat + 2 ≤ 255 → s.reg 7 ≠ 0x00#8 → 8 ≤ a.toNat →
      exec (.call a) s = .next (faultEntry (.invalidRegister a) s))

/-- 43_control_transfer.md R99. -/
def Obligations.RetPopsProgramCounter : Prop :=
  encode .ret = [0x11#8] ∧
  ∀ s : State,
    (s.reg 7 ≠ 0xFF#8 → exec .ret s =
      .next { s.setReg 7 (s.reg 7 + 1#8) with pc := (s.mem.read (s.reg 7).toNat).setWidth 9 }) ∧
    (s.reg 7 = 0xFF#8 → exec .ret s = .next (faultEntry (.outOfBounds 256) s))

/-- 43_control_transfer.md R101. -/
def Obligations.JmpLoadsProgramCounter : Prop :=
  (∀ a : Byte, encode (.jmp a) = [0x54#8, a]) ∧
  ∀ (a : Byte) (s : State),
    (∀ h : a.toNat < 8, exec (.jmp a) s = .next { s with pc := (s.reg ⟨a.toNat, h⟩).setWidth 9 }) ∧
    (8 ≤ a.toNat → exec (.jmp a) s = .next (faultEntry (.invalidRegister a) s))

/-- 43_control_transfer.md R102: a JEQ that is not taken reads no register, so any operand byte completes. -/
def Obligations.JeqJumpsIfEqual : Prop :=
  (∀ a : Byte, encode (.jeq a) = [0x55#8, a]) ∧
  ∀ (a : Byte) (s : State),
    (∀ h : a.toNat < 8, s.e = true → exec (.jeq a) s = .next { s with pc := (s.reg ⟨a.toNat, h⟩).setWidth 9 }) ∧
    (s.e = false → exec (.jeq a) s = .next { s with pc := s.pc + 2#9 }) ∧
    (s.e = true → 8 ≤ a.toNat → exec (.jeq a) s = .next (faultEntry (.invalidRegister a) s))

/-- 43_control_transfer.md R103: a JNE that is not taken reads no register, so any operand byte completes. -/
def Obligations.JneJumpsIfNotEqual : Prop :=
  (∀ a : Byte, encode (.jne a) = [0x56#8, a]) ∧
  ∀ (a : Byte) (s : State),
    (∀ h : a.toNat < 8, s.e = false → exec (.jne a) s = .next { s with pc := (s.reg ⟨a.toNat, h⟩).setWidth 9 }) ∧
    (s.e = true → exec (.jne a) s = .next { s with pc := s.pc + 2#9 }) ∧
    (s.e = false → 8 ≤ a.toNat → exec (.jne a) s = .next (faultEntry (.invalidRegister a) s))

/-! ## Frames: what an instruction leaves unchanged -/

/-- LDI, ADD and MUL change no register but their destination a, not E and no byte of memory; the run state, the fault
record, the output and the host's inputs stay, or the instruction took a fault and nothing but the fault entry happened. -/
def Obligations.RegisterDestinationFrame : Prop :=
  ∀ (i : Instr) (a b : Byte) (s t : State), (i = .ldi a b ∨ i = .add a b ∨ i = .mul a b) → exec i s = .next t →
    (∀ r : Fin 8, r.val ≠ a.toNat → t.reg r = s.reg r) ∧ t.e = s.e ∧ SameMemory s t ∧
    (SameControl s t ∨ TookFault s t)

/-- HLT, PRN, CMP, JMP, JEQ and JNE change no register and no byte of memory. Only CMP changes E. Run state, fault record,
output and host's inputs stay, but for HLT's run state and PRN's output, or the instruction took a fault. -/
def Obligations.NoDestinationFrame : Prop :=
  ∀ (i : Instr) (s t : State),
    (i = .hlt ∨ (∃ a, i = .prn a) ∨ (∃ a b, i = .cmp a b) ∨ (∃ a, i = .jmp a) ∨ (∃ a, i = .jeq a) ∨ (∃ a, i = .jne a)) →
    exec i s = .next t →
    t.regs = s.regs ∧ SameMemory s t ∧ ((∀ a b, i ≠ .cmp a b) → t.e = s.e) ∧
    (SameControl s t ∨
     (i = .hlt ∧ t.run = .halted ∧ SameControl s { t with run := s.run }) ∨
     (∃ a v, i = .prn a ∧ t.outPort = some v ∧ t.out = s.out ++ [v] ∧
       SameControl s { t with outPort := s.outPort, out := s.out }) ∨
     TookFault s t)

/-- PUSH and CALL change no register but SP (R7), not E, and no byte of memory but the one at the address the push computes;
where the push has no address (SP = 0x00) or the instruction faulted, every byte stays. -/
def Obligations.StoringFrame : Prop :=
  ∀ (i : Instr) (a : Byte) (s t : State), (i = .push a ∨ i = .call a) → exec i s = .next t →
    (∀ r : Fin 8, r ≠ 7 → t.reg r = s.reg r) ∧ t.e = s.e ∧
    (∀ d : Nat, pushAddress s = (d : Int) → ∀ x : Nat, x ≠ d → t.mem.read x = s.mem.read x) ∧
    (pushAddress s < 0 → SameMemory s t) ∧
    (SameControl s t ∨ TookFault s t)

/-- POP a and RET change no register but SP (R7) and, for POP, register a; not E and no byte of memory. -/
def Obligations.PoppingFrame : Prop :=
  ∀ (i : Instr) (a : Byte) (s t : State), (i = .pop a ∨ i = .ret) → exec i s = .next t →
    (∀ r : Fin 8, r ≠ 7 → (i = .pop a → r.val ≠ a.toNat) → t.reg r = s.reg r) ∧ t.e = s.e ∧ SameMemory s t ∧
    (SameControl s t ∨ TookFault s t)

/-! ## The shared operations -/

/-- 10_state.md R24 and R25: reads and writes of a register by an operand byte. -/
def Obligations.RegisterReadAfterWrite : Prop :=
  ∀ (i v : Byte) (s : State),
    (∀ h : i.toNat < 8, regRead i s = .ok s.regs[i.toNat]) ∧
    (i.toNat < 8 → ∃ t, regWrite i v s = .ok t ∧ regRead i t = .ok v ∧
      (∀ j : Byte, j ≠ i → regRead j t = regRead j s) ∧ { t with regs := s.regs } = s) ∧
    (8 ≤ i.toNat → regRead i s = .error (.invalidRegister i) ∧ regWrite i v s = .error (.invalidRegister i))

/-- 20_memory.md R43, R44 and R45: reads and writes of one byte at an integer address. The premise is the canonical
form of memory (log entry 8), which StepKeepsInvariant keeps. -/
def Obligations.MemoryReadAfterWrite : Prop :=
  ∀ (a : Int) (v : Byte) (s : State), s.mem.wf = true →
    (0 ≤ a → a ≤ 255 → ∃ t, memWrite a v s = .ok t ∧ memRead a t = .ok v ∧
      (∀ b : Int, b ≠ a → memRead b t = memRead b s) ∧ { t with mem := s.mem } = s) ∧
    (0 ≤ a → a ≤ 255 → memRead a s = .ok (s.mem.read a.toNat)) ∧
    (a < 0 ∨ 255 < a → memRead a s = .error (.outOfBounds a) ∧ memWrite a v s = .error (.outOfBounds a))

/-- 20_memory.md R51: with SP = 0x00 a push raises OutOfBounds(-1); otherwise it leaves SP one lower and the value at the
address SP then holds, and changes no other register, no other byte and nothing else. -/
def Obligations.PushDecrementsThenWrites : Prop :=
  ∀ (v : Byte) (s : State), s.mem.wf = true →
    (s.reg 7 = 0x00#8 → push v s = .error (.outOfBounds (-1))) ∧
    (s.reg 7 ≠ 0x00#8 → ∃ t, push v s = .ok t ∧ (t.reg 7).toNat + 1 = (s.reg 7).toNat ∧
      memRead (t.reg 7).toNat t = .ok v ∧
      (∀ a : Int, a ≠ (t.reg 7).toNat → memRead a t = memRead a s) ∧
      (∀ r : Fin 8, r ≠ 7 → t.reg r = s.reg r) ∧ { t with regs := s.regs, mem := s.mem } = s)

/-- 20_memory.md R52: with SP = 0xFF a pop raises OutOfBounds(256); otherwise it gives the byte at the address in SP, leaves SP one
higher, and changes no other register and nothing else. -/
def Obligations.PopReadsThenIncrements : Prop :=
  ∀ s : State,
    (s.reg 7 = 0xFF#8 → pop s = .error (.outOfBounds 256)) ∧
    (s.reg 7 ≠ 0xFF#8 → ∃ v t, pop s = .ok (v, t) ∧ memRead (s.reg 7).toNat s = .ok v ∧
      (t.reg 7).toNat = (s.reg 7).toNat + 1 ∧
      (∀ r : Fin 8, r ≠ 7 → t.reg r = s.reg r) ∧ { t with regs := s.regs } = s)

/-- 20_memory.md R53: after pushes that all complete, as many pops complete, give the values in reverse order, and bring back
every register; only memory keeps the pushed bytes. The premise is the canonical form of memory (log entry 8). -/
def Obligations.StackRoundTrip : Prop :=
  ∀ (vs : List Byte) (s t : State), s.mem.wf = true → pushAll vs s = .ok t →
    popMany vs.length t = .ok (vs.reverse, { s with mem := t.mem })

/-- 43_control_transfer.md R100: a CALL at P that completes lands at the content of its register, and a RET in any later state
with SP and M[SP] as the CALL left them resumes at P + 2 with SP as before the CALL; neither saves or restores another register.
The spec derives R100 from R98 and R99. The premise is the canonical form of memory (log entry 8). -/
def Obligations.CallThenRetResumes : Prop :=
  ∀ (a : Byte) (h : a.toNat < 8) (s t u : State),
    s.mem.wf = true → s.run = .running → exec (.call a) s = .next t → t.run = .running →
    u.reg 7 = t.reg 7 → u.mem.read (u.reg 7).toNat = t.mem.read (t.reg 7).toNat →
    t.pc = (t.reg ⟨a.toNat, h⟩).setWidth 9 ∧ (a ≠ 7#8 → t.pc = (s.reg ⟨a.toNat, h⟩).setWidth 9) ∧
    (∀ r : Fin 8, r ≠ 7 → t.reg r = s.reg r) ∧
    ∃ w, exec .ret u = .next w ∧ w.pc.toNat = s.pc.toNat + 2 ∧ w.reg 7 = s.reg 7 ∧
      ∀ r : Fin 8, r ≠ 7 → w.reg r = u.reg r

/-- 41_register_alu.md R89 and R90: the ALU on its three tags, and on the tag it does not recognise. -/
def Obligations.AluComputes : Prop :=
  ∀ x y : Byte,
    alu 0#2 x y = .ok { result := some (BitVec.ofNat 8 ((x.toNat + y.toNat) % 256)), flagUpdate := none } ∧
    alu 1#2 x y = .ok { result := some (BitVec.ofNat 8 ((x.toNat * y.toNat) % 256)), flagUpdate := none } ∧
    alu 2#2 x y = .ok { result := none, flagUpdate := some (decide (x = y)) } ∧
    alu 3#2 x y = .error (.unsupportedOperation 3#2)

/-! ## Faults -/

/-- 60_exceptions.md R104 and R111: what the fault entry writes for each cause, that nothing else changes, and that the status
port `faulted` is 1 after it. -/
def Obligations.FaultEntryWritesRecord : Prop :=
  ∀ s : State,
    (∀ a : Int, faultEntry (.outOfBounds a) s =
      { s with faultCode := 1#3, faultInfo := BitVec.ofInt 16 a, faultPc := s.pc, run := .faulted }) ∧
    (∀ i : Byte, faultEntry (.invalidRegister i) s =
      { s with faultCode := 2#3, faultInfo := i.setWidth 16, faultPc := s.pc, run := .faulted }) ∧
    (∀ op : Byte, faultEntry (.illegalInstruction op) s =
      { s with faultCode := 3#3, faultInfo := op.setWidth 16, faultPc := s.pc, run := .faulted }) ∧
    (∀ tag : BitVec 2, faultEntry (.unsupportedOperation tag) s =
      { s with faultCode := 4#3, faultInfo := tag.setWidth 16, faultPc := s.pc, run := .faulted }) ∧
    (∀ c : FaultCause, (faultEntry c s).faultedPort = true) ∧
    BitVec.ofInt 16 (-1) = 0xFFFF#16 ∧ BitVec.ofInt 16 256 = 0x0100#16

/-- 60_exceptions.md R110: faults are precise. A step in which a Running core faults keeps no register, no memory byte, not
E, not pc and no output value: its result is the fault entry on the state the step began with (log entries 1 and 3), under
every FETCH_POLICY. -/
def Obligations.FaultsArePrecise : Prop :=
  ∀ (c : Config) (s t : State), Executing s → stepWith c s = .next t → t.run = .faulted →
    TookFault { s with inputs := s.inputs.tail, outPort := none } t ∧
    t.regs = s.regs ∧ t.mem = s.mem ∧ t.e = s.e ∧ t.pc = s.pc ∧ t.out = s.out ∧ t.outPort = none

/-- 60_exceptions.md R105 and R107: which instruction can raise which fault in its execution, with what it records. -/
def Obligations.FaultsByInstruction : Prop :=
  ∀ (i : Instr) (s t : State), s.run = .running → exec i s = .next t → t.run = .faulted →
    (t.faultCode = 1#3 ∧
      ((∃ a, i = .push a ∧ s.reg 7 = 0x00#8 ∧ t.faultInfo = 0xFFFF#16) ∨
       (∃ a, i = .call a ∧ ((255 < s.pc.toNat + 2 ∧ t.faultInfo = BitVec.ofNat 16 (s.pc.toNat + 2)) ∨
         (s.reg 7 = 0x00#8 ∧ t.faultInfo = 0xFFFF#16))) ∨
       (∃ a, i = .pop a ∧ s.reg 7 = 0xFF#8 ∧ t.faultInfo = 0x0100#16) ∨
       (i = .ret ∧ s.reg 7 = 0xFF#8 ∧ t.faultInfo = 0x0100#16))) ∨
    (t.faultCode = 2#3 ∧ ∃ r : Byte, 8 ≤ r.toNat ∧ t.faultInfo = r.setWidth 16 ∧
      (i = .prn r ∨ i = .push r ∨ i = .pop r ∨ i = .call r ∨ i = .jmp r ∨ (∃ v, i = .ldi r v) ∨
       (∃ x, i = .add r x ∨ i = .mul r x ∨ i = .cmp r x ∨ i = .add x r ∨ i = .mul x r ∨ i = .cmp x r) ∨
       (i = .jeq r ∧ s.e = true) ∨ (i = .jne r ∧ s.e = false)))

/-- 60_exceptions.md R108 (and 41_register_alu.md R90): the ALU raises UnsupportedOperation on every tag but 0, 1 and 2, and
no step of a Running core raises it. -/
def Obligations.UnsupportedOperationUnreachable : Prop :=
  (∀ (tag : BitVec 2) (x y : Byte), tag ≠ 0#2 → tag ≠ 1#2 → tag ≠ 2#2 → alu tag x y = .error (.unsupportedOperation tag)) ∧
  ∀ (c : Config) (s t : State), Executing s → stepWith c s = .next t → t.run = .faulted → t.faultCode ≠ 4#3

/-- 20_memory.md R42: the out-of-range addresses a core with pc in 0 to 256 can form are -1 and 256. -/
def Obligations.OutOfBoundsAddresses : Prop :=
  ∀ (c : Config) (s t : State), s.pc.toNat ≤ 256 → Executing s → stepWith c s = .next t → t.run = .faulted →
    t.faultCode = 1#3 → t.faultInfo = 0xFFFF#16 ∨ t.faultInfo = 0x0100#16

/-- 30_encoding.md R64, 60_exceptions.md R107: a well-formed instruction, one whose register operands are all 0 to 7, never
raises InvalidRegister: its only fault in execution is OutOfBounds. -/
def Obligations.WellFormedNeverInvalidRegister : Prop :=
  ∀ (i : Instr) (s t : State), i.wellFormed = true → s.run = .running → exec i s = .next t → t.run = .faulted →
    t.faultCode = 1#3

/-! ## Rules of the whole machine -/

/-- 10_state.md R28: the program counter after each instruction; one that faults does not write it. CALL's register is read
after its push, so its content is that of the state after. -/
def Obligations.ProgramCounterUpdates : Prop :=
  ∀ (i : Instr) (s t : State), s.run = .running → exec i s = .next t →
    (t.run = .faulted → t.pc = s.pc) ∧
    (t.run ≠ .faulted →
      (i = .hlt → t.pc = s.pc + 1#9) ∧
      (i = .ret → t.pc = (s.mem.read (s.reg 7).toNat).setWidth 9) ∧
      (∀ a, i = .prn a ∨ i = .push a ∨ i = .pop a → t.pc = s.pc + 2#9) ∧
      (∀ a, i = .call a → ∃ h : a.toNat < 8, t.pc = (t.reg ⟨a.toNat, h⟩).setWidth 9) ∧
      (∀ a, i = .jmp a → ∃ h : a.toNat < 8, t.pc = (s.reg ⟨a.toNat, h⟩).setWidth 9) ∧
      (∀ a, i = .jeq a → (s.e = true → ∃ h : a.toNat < 8, t.pc = (s.reg ⟨a.toNat, h⟩).setWidth 9) ∧
        (s.e = false → t.pc = s.pc + 2#9)) ∧
      (∀ a, i = .jne a → (s.e = false → ∃ h : a.toNat < 8, t.pc = (s.reg ⟨a.toNat, h⟩).setWidth 9) ∧
        (s.e = true → t.pc = s.pc + 2#9)) ∧
      (∀ a b, i = .ldi a b ∨ i = .add a b ∨ i = .mul a b ∨ i = .cmp a b → t.pc = s.pc + 3#9))

/-- 10_state.md R29: pc never wraps. A step that runs an instruction which advances pc by its length adds that length exactly,
and the sum is at most 256. -/
def Obligations.AdvanceNeverWraps : Prop :=
  ∀ (c : Config) (s t : State) (i : Instr), Executing s → fetch c.fetchPolicy s = .ok i → stepWith c s = .next t →
    t.run ≠ .faulted →
    (i = .hlt ∨ (∃ a, i = .prn a ∨ i = .push a ∨ i = .pop a) ∨
      (∃ a b, i = .ldi a b ∨ i = .add a b ∨ i = .mul a b ∨ i = .cmp a b)) →
    t.pc.toNat = s.pc.toNat + i.length ∧ t.pc.toNat ≤ 256

/-- 10_state.md R30: E is written only by CMP, read only by JEQ and JNE, and resets to E_RESET = 0. That an instruction does
not read E is said so: from two states that differ in E alone it gives two states that differ in E alone. -/
def Obligations.EqualFlagDiscipline : Prop :=
  (∀ (c : Config) (s t : State), s.input.rst = false → stepWith c s = .next t → t.e ≠ s.e →
    s.run = .running ∧ ∃ (a b : Byte) (ha : a.toNat < 8) (hb : b.toNat < 8),
      fetch c.fetchPolicy s = .ok (.cmp a b) ∧ t.e = decide (s.reg ⟨a.toNat, ha⟩ = s.reg ⟨b.toNat, hb⟩)) ∧
  (∀ (i : Instr) (s t : State) (v : Bool), (∀ a, i ≠ .jeq a ∧ i ≠ .jne a) → exec i s = .next t →
    ∃ u, exec i { s with e := v } = .next u ∧ { u with e := t.e } = t) ∧
  State.reset.e = false

/-- 10_state.md R32 and 00_scope.md R16, R18: the transitions of the run state in one step, and no other; in
every run state but Running no instruction is executed. -/
def Obligations.RunStateTransitions : Prop :=
  ∀ (c : Config) (s t : State), stepWith c s = .next t →
    (s.input.rst = true → t.run = .idle) ∧
    (s.input.rst = false → s.run = .idle → t.run = if s.input.start then .running else .idle) ∧
    (s.input.rst = false → s.run = .running →
      (t.run = .running ∧ fetch c.fetchPolicy s ≠ .ok .hlt) ∨
      (t.run = .halted ∧ fetch c.fetchPolicy s = .ok .hlt) ∨
      (t.run = .faulted ∧ fetch c.fetchPolicy s ≠ .ok .hlt ∧ TookFault s.beginStep t)) ∧
    (s.input.rst = false → s.run = .halted ∨ s.run = .faulted → t.run = s.run) ∧
    (s.input.rst = false → s.run ≠ .running → t.regs = s.regs ∧ t.pc = s.pc ∧ t.e = s.e ∧ t.out = s.out)

/-- 10_state.md R33: the fault record changes only at fault entry, and no instruction reads it: what an instruction does to the
rest of the state is the same whatever the record holds. -/
def Obligations.FaultRecordDiscipline : Prop :=
  (∀ (c : Config) (s t : State), s.input.rst = false → stepWith c s = .next t →
    (t.faultCode = s.faultCode ∧ t.faultInfo = s.faultInfo ∧ t.faultPc = s.faultPc) ∨
    (s.run = .running ∧ t.run = .faulted ∧ t.faultPc = s.pc)) ∧
  ∀ (i : Instr) (s t : State) (code : BitVec 3) (info : BitVec 16) (p : PcWord), exec i s = .next t →
    ∃ u, exec i { s with faultCode := code, faultInfo := info, faultPc := p } = .next u ∧
      { u with faultCode := t.faultCode, faultInfo := t.faultInfo, faultPc := t.faultPc } = t

/-- 20_memory.md R38 and R59: in a step without rst, a byte of memory changes only by a PUSH or CALL, at the address SP - 1, or
by the load port in Idle, at its address. -/
def Obligations.MemoryWriters : Prop :=
  ∀ (c : Config) (s t : State), s.input.rst = false → stepWith c s = .next t →
    ∀ x : Nat, t.mem.read x ≠ s.mem.read x →
      (s.run = .running ∧ (∃ a, fetch c.fetchPolicy s = .ok (.push a) ∨ fetch c.fetchPolicy s = .ok (.call a)) ∧
        pushAddress s = (x : Int)) ∨
      (s.run = .idle ∧ s.input.ldWe = true ∧ x = s.input.ldAddr.toNat)

/-- 00_scope.md R19, 40_system.md R88: the output port pulses exactly in the steps that run a PRN which completes, with that
register's content, and the output trace grows by exactly that value (log entries 2 and 3). -/
def Obligations.OutputOnlyByPrn : Prop :=
  ∀ (c : Config) (s t : State), s.input.rst = false → stepWith c s = .next t →
    t.out = s.out ++ t.outPort.toList ∧
    ∀ v : Byte, t.outPort = some v ↔
      s.run = .running ∧ ∃ (a : Byte) (h : a.toNat < 8), fetch c.fetchPolicy s = .ok (.prn a) ∧ v = s.reg ⟨a.toNat, h⟩

/-- 10_state.md R34: an instruction's effect on the registers, pc, E, memory and the run state depends on those alone; the
fault record, the output and the host's inputs are not read. -/
def Obligations.VisibleStateDecides : Prop :=
  ∀ (i : Instr) (s s' t : State),
    s'.regs = s.regs → s'.pc = s.pc → s'.e = s.e → s'.mem = s.mem → s'.run = s.run →
    exec i s = .next t →
    ∃ t', exec i s' = .next t' ∧
      t'.regs = t.regs ∧ t'.pc = t.pc ∧ t'.e = t.e ∧ t'.mem = t.mem ∧ t'.run = t.run

/-- 70_reset_and_hazards.md R138, 30_encoding.md R81: every step answers a next state, in every state: nothing is refused and
a Running core always takes its next step (log entry 4 for the other run states). -/
def Obligations.StepAlwaysAnswersNext : Prop :=
  ∀ (c : Config) (s : State), ∃ t, stepWith c s = .next t

/-- 60_exceptions.md R120: while Halted or Faulted and without rst, every register, E, pc, memory and the fault record keep
their values (log entries 1, 3 and 4 for the step that does so). -/
def Obligations.TerminalStatesKeepState : Prop :=
  ∀ (c : Config) (s : State), s.input.rst = false → Succeeded s ∨ Failed s →
    stepWith c s = .next { s with inputs := s.inputs.tail, outPort := none }

/-! ## Reset, boot and the host's ports -/

/-- 70_reset_and_hazards.md R123: rst in any state sets every piece of state to its reset value; and State.reset has them. -/
def Obligations.ResetValues : Prop :=
  (∀ s : State, s.input.rst = true → ∃ t, step s = .next t ∧
    t.regs = #v[0x00#8, 0x00#8, 0x00#8, 0x00#8, 0x00#8, 0x00#8, 0x00#8, 0xF4#8] ∧ t.pc = 0#9 ∧ t.e = false ∧
    t.run = .idle ∧ t.faultCode = 0#3 ∧ t.faultInfo = 0#16 ∧ t.faultPc = 0#9 ∧
    (∀ a : Nat, t.mem.read a = 0x00#8) ∧ t.outPort = none) ∧
  State.reset.regs = #v[0x00#8, 0x00#8, 0x00#8, 0x00#8, 0x00#8, 0x00#8, 0x00#8, 0xF4#8] ∧ State.reset.pc = 0#9 ∧
  State.reset.e = false ∧ State.reset.run = .idle ∧ State.reset.faultCode = 0#3 ∧ State.reset.faultInfo = 0#16 ∧
  State.reset.faultPc = 0#9 ∧ (∀ a : Nat, State.reset.mem.read a = 0x00#8) ∧ State.reset.outPort = none

/-- 00_scope.md R17 and R18: in Idle the load port writes one byte and start makes the core Running; in every other run state
neither does anything (log entries 1 and 12). -/
def Obligations.LoadAndStartPorts : Prop :=
  ∀ (c : Config) (s : State) (h : HostInput) (later : List HostInput), h.rst = false →
    (s.run = .idle → stepWith c { s with inputs := h :: later } =
      .next { s with
        mem := if h.ldWe then s.mem.write h.ldAddr.toNat h.ldData else s.mem,
        run := if h.start then .running else .idle, outPort := none, inputs := later }) ∧
    (s.run ≠ .idle → stepWith c { s with inputs := h :: later } =
      stepWith c { s with inputs := { h with ldWe := false, ldAddr := 0#8, ldData := 0#8, start := false } :: later })

/-- 70_reset_and_hazards.md R126, R128 and R129: the boot sequence, from any state and for any image of at most 256 bytes,
brings the core to the launch state: image byte k at address k, 0x00 behind it, everything else at its reset value, Running
(log entries 1, 2 and 8). -/
def Obligations.BootReachesLaunchState : Prop :=
  ∀ (c : Config) (s : State) (image : List Byte) (later : List HostInput), image.length ≤ 256 →
    runSteps c (image.length + 2) { s with inputs := bootScript image ++ later } =
      .next { launch c image with inputs := later } ∧
    (∀ k : Nat, (launch c image).mem.read k = image.getD k 0x00#8) ∧ (launch c image).mem.wf = true ∧
    launch c image = { State.resetWith c with mem := (launch c image).mem, run := .running }

/-! ## The invariant -/

/-- The invariant holds right after reset, for every value of the parameters. -/
def Obligations.ResetMeetsInvariant : Prop :=
  Inv State.reset ∧ ∀ c : Config, Inv (State.resetWith c)

/-- Every step keeps the invariant, from every state that meets it and for every value of the parameters: memory stays in
canonical form (log entry 8), pc and fault_pc stay in 0 to 256 (10_state.md R27, R29), the fault code is that of a reachable
cause exactly in Faulted, and the record is blank until then (10_state.md R33; 60_exceptions.md R104, R108). -/
def Obligations.StepKeepsInvariant : Prop :=
  ∀ (c : Config) (s t : State), Inv s → stepWith c s = .next t → Inv t

/-! ## Two descriptions of one machine -/

/-- 30_encoding.md R82 to R86: the datapath driven by the decoder's outputs alone does what the instruction's rule says, for
every instruction, operand and state of a Running core; and the control table lists exactly the opcodes of the table
(log entry 14). -/
def Obligations.DatapathAgreesWithRules : Prop :=
  (∀ (i : Instr) (s : State), s.run = .running →
    ∃ k, controlOf i.opcode = some k ∧ k.length = i.length ∧
      commit s (datapath k (i.operandBytes.getD 0 0#8) (i.operandBytes.getD 1 0#8) s) = exec i s) ∧
  ∀ op : Byte, controlOf op = none ↔ ∀ i : Instr, i.opcode ≠ op

/-- 30_encoding.md R78 with R77: the phases of an instruction end with the outcome of the one architectural step. Five phases
always suffice, and a fetched instruction takes its length plus two (log entry 14). -/
def Obligations.PhasesRefineStep : Prop :=
  ∀ s : State,
    runPhases s 5 .fetchOp = .done (runInstruction .boundsAware s) ∧
    ∀ i : Instr, fetch .boundsAware s = .ok i → runPhases s (i.length + 2) .fetchOp = .done (exec i s)

/-! ## One memory -/

/-- 20_memory.md R58, with R37, R48 and R57: memory is one flat store. After a byte
is written, reading that address gives it and every other address reads as before; the next fetch sees it, as an opcode and as
an operand byte; a pop at that address gives it; and neither a pop nor a fetch changes memory (a fetch gives no new state).
The premise is the canonical form of memory (log entry 8). -/
def Obligations.MemoryIsOneFlatStore : Prop :=
  ∀ (a v : Byte) (s t : State), s.mem.wf = true → memWrite a.toNat v s = .ok t →
    (∀ b : Nat, t.mem.read b = if b = a.toNat then v else s.mem.read b) ∧
    (∀ p k n : Nat, p + k = a.toNat → k < n → (bytesFrom t p n)[k]? = some v) ∧
    (∀ i : Instr, i.opcode = v → bytesFrom t (a.toNat + 1) (i.length - 1) = i.operandBytes →
      fetchAt .boundsAware a.toNat t = .ok i) ∧
    ((∀ i : Instr, i.opcode ≠ v) → fetchAt .boundsAware a.toNat t = .error (.illegalInstruction v)) ∧
    (t.reg 7 = a → a ≠ 0xFF#8 → ∃ u, pop t = .ok (v, u) ∧ u.mem = t.mem)
end

