-- ==== Sys2Proof/Laws/Memory.lean ====
section
/-!
SUPPORT. Laws of the memory list: reads after writes, and that every operation keeps the canonical form.
-/

namespace Sys2Proof.Machine

/-- A list without an entry for `a` reads the unlisted value there. -/
theorem Memory.read_of_lt {lo a : Nat} (m : Memory) (h : Memory.wfFrom lo m = true) (ha : a < lo) :
    Memory.read m a = Memory.unlisted := by
  induction m generalizing lo with
  | nil => rfl
  | cons c m ih =>
    obtain ⟨b, w⟩ := c
    simp only [Memory.wfFrom, Bool.and_eq_true, decide_eq_true_eq] at h
    have : a ≠ b := by omega
    simp only [Memory.read, this, if_false]
    exact ih h.2 (by omega)

theorem Memory.wfFrom_mono {lo lo' : Nat} (m : Memory) (h : Memory.wfFrom lo m = true) (hl : lo' ≤ lo) :
    Memory.wfFrom lo' m = true := by
  cases m with
  | nil => rfl
  | cons c m =>
    simp only [Memory.wfFrom, Bool.and_eq_true, decide_eq_true_eq] at h ⊢
    exact ⟨⟨⟨by omega, h.1.1.2⟩, h.1.2⟩, h.2⟩

theorem Memory.wfFrom_entry {lo a : Nat} {v : Byte} {m : Memory} (h : Memory.wfFrom (a + 1) m = true)
    (hl : lo ≤ a) (ha : a < 256) : Memory.wfFrom lo (Memory.entry a v ++ m) = true := by
  unfold Memory.entry
  split
  · exact Memory.wfFrom_mono m h (by omega)
  · rename_i hv
    simp [Memory.wfFrom, hl, ha, hv, h]

/-- A write inside memory keeps the canonical form. -/
theorem Memory.wfFrom_write {lo a : Nat} (m : Memory) (v : Byte) (h : Memory.wfFrom lo m = true)
    (hl : lo ≤ a) (ha : a < 256) : Memory.wfFrom lo (Memory.write m a v) = true := by
  induction m generalizing lo with
  | nil => simpa [Memory.write] using Memory.wfFrom_entry (m := []) rfl hl ha
  | cons c m ih =>
    obtain ⟨b, w⟩ := c
    simp only [Memory.write]
    have hc := h
    simp only [Memory.wfFrom, Bool.and_eq_true, decide_eq_true_eq] at hc
    split
    · refine Memory.wfFrom_entry ?_ hl ha
      simp only [Memory.wfFrom, Bool.and_eq_true, decide_eq_true_eq]
      exact ⟨⟨⟨by omega, hc.1.1.2⟩, hc.1.2⟩, hc.2⟩
    · split
      · subst a
        exact Memory.wfFrom_entry hc.2 hl ha
      · simp only [Memory.wfFrom, Bool.and_eq_true, decide_eq_true_eq]
        exact ⟨hc.1, ih hc.2 (by omega)⟩

theorem Memory.wf_write (m : Memory) (a : Nat) (v : Byte) (h : m.wf = true) (ha : a < 256) :
    (m.write a v).wf = true :=
  Memory.wfFrom_write m v h (Nat.zero_le a) ha

theorem Memory.read_entry_append_same {a : Nat} {v : Byte} {m : Memory} (h : Memory.read m a = Memory.unlisted) :
    Memory.read (Memory.entry a v ++ m) a = v := by
  unfold Memory.entry
  split
  · rename_i hv
    rw [hv]
    exact h
  · simp [Memory.read]

theorem Memory.read_entry_append_ne {a b : Nat} {v : Byte} {m : Memory} (h : b ≠ a) :
    Memory.read (Memory.entry a v ++ m) b = Memory.read m b := by
  unfold Memory.entry
  split
  · rfl
  · simp [Memory.read, h]

theorem Memory.wfFrom_read_write_same {lo a : Nat} (m : Memory) (v : Byte) (h : Memory.wfFrom lo m = true)
    (hl : lo ≤ a) : Memory.read (Memory.write m a v) a = v := by
  induction m generalizing lo with
  | nil => simpa [Memory.write] using Memory.read_entry_append_same (v := v) (m := []) (rfl : Memory.read [] a = _)
  | cons c m ih =>
    obtain ⟨b, w⟩ := c
    have hc := h
    simp only [Memory.wfFrom, Bool.and_eq_true, decide_eq_true_eq] at hc
    simp only [Memory.write]
    split
    · rename_i hab
      apply Memory.read_entry_append_same
      have : a ≠ b := by omega
      simp only [Memory.read, this, if_false]
      exact Memory.read_of_lt m hc.2 (by omega)
    · split
      · subst a
        exact Memory.read_entry_append_same (Memory.read_of_lt m hc.2 (by omega))
      · rename_i h1 h2
        simp only [Memory.read, h2, if_false]
        exact ih hc.2 (by omega)

/-- Read after write at the same address (20_memory.md R45). -/
theorem Memory.read_write_same (m : Memory) (a : Nat) (v : Byte) (h : m.wf = true) :
    (m.write a v).read a = v :=
  Memory.wfFrom_read_write_same m v h (Nat.zero_le a)

/-- A write leaves every other address alone, in canonical form or not. -/
theorem Memory.read_write_ne (m : Memory) (a b : Nat) (v : Byte) (h : b ≠ a) :
    (m.write a v).read b = m.read b := by
  induction m with
  | nil => simpa [Memory.write] using Memory.read_entry_append_ne (v := v) (m := []) h
  | cons c m ih =>
    obtain ⟨d, w⟩ := c
    simp only [Memory.write]
    split
    · exact Memory.read_entry_append_ne h
    · split
      · subst a
        rw [Memory.read_entry_append_ne h]
        simp [Memory.read, h]
      · simp only [Memory.read]
        rw [ih]

theorem Memory.read_write (m : Memory) (a b : Nat) (v : Byte) (h : m.wf = true) :
    (m.write a v).read b = if b = a then v else m.read b := by
  split
  · subst b; exact Memory.read_write_same m a v h
  · exact Memory.read_write_ne m a b v ‹_›

theorem Memory.wf_writeBytes (vs : List Byte) (m : Memory) (a : Nat) (h : m.wf = true) :
    (m.writeBytes a vs).wf = true := by
  induction vs generalizing m a with
  | nil => exact h
  | cons v vs ih =>
    simp only [Memory.writeBytes]
    split
    · exact ih _ _ (Memory.wf_write m a v h ‹_›)
    · exact h

/-- Equal reads make equal lists: the form is canonical, so equal memories are equal data. -/
theorem Memory.ext_of_read {lo : Nat} (m n : Memory) (hm : Memory.wfFrom lo m = true) (hn : Memory.wfFrom lo n = true)
    (h : ∀ a, m.read a = n.read a) : m = n := by
  induction m generalizing lo n with
  | nil =>
    cases n with
    | nil => rfl
    | cons c n =>
      obtain ⟨b, w⟩ := c
      simp only [Memory.wfFrom, Bool.and_eq_true, decide_eq_true_eq] at hn
      have := h b
      simp [Memory.read] at this
      exact absurd this.symm hn.1.2
  | cons c m ih =>
    obtain ⟨b, w⟩ := c
    have hm' := hm
    simp only [Memory.wfFrom, Bool.and_eq_true, decide_eq_true_eq] at hm'
    cases n with
    | nil =>
      have := h b
      simp [Memory.read] at this
      exact absurd this hm'.1.2
    | cons d n =>
      obtain ⟨b', w'⟩ := d
      have hn' := hn
      simp only [Memory.wfFrom, Bool.and_eq_true, decide_eq_true_eq] at hn'
      have hb : b = b' := by
        rcases Nat.lt_trichotomy b b' with hlt | heq | hgt
        · have h1 := h b
          rw [Memory.read_of_lt (lo := b') ((b', w') :: n) (by simp [Memory.wfFrom, hn']) hlt] at h1
          simp [Memory.read] at h1
          exact absurd h1 hm'.1.2
        · exact heq
        · have h1 := h b'
          rw [Memory.read_of_lt (lo := b) ((b, w) :: m) (by simp [Memory.wfFrom, hm']) hgt] at h1
          simp [Memory.read] at h1
          exact absurd h1.symm hn'.1.2
      subst b'
      have hw : w = w' := by simpa [Memory.read] using h b
      subst w'
      congr 1
      refine ih n hm'.2 hn'.2 fun a => ?_
      by_cases ha : a = b
      · subst ha
        rw [Memory.read_of_lt m hm'.2 (by omega), Memory.read_of_lt n hn'.2 (by omega)]
      · simpa [Memory.read, ha] using h a

end Sys2Proof.Machine
end

