-- ==== Sys2Proof/Laws/State.lean ====
section
/-!
SUPPORT. What each update of the state does to each field, so that no proof unfolds an update.
-/

namespace Sys2Proof.Machine

variable (s : State)

/-! `setReg` -/

@[simp] theorem setReg_regs (i : Fin 8) (v : Byte) : (s.setReg i v).regs = s.regs.set i v := rfl
@[simp] theorem setReg_pc (i : Fin 8) (v : Byte) : (s.setReg i v).pc = s.pc := rfl
@[simp] theorem setReg_e (i : Fin 8) (v : Byte) : (s.setReg i v).e = s.e := rfl
@[simp] theorem setReg_run (i : Fin 8) (v : Byte) : (s.setReg i v).run = s.run := rfl
@[simp] theorem setReg_faultCode (i : Fin 8) (v : Byte) : (s.setReg i v).faultCode = s.faultCode := rfl
@[simp] theorem setReg_faultInfo (i : Fin 8) (v : Byte) : (s.setReg i v).faultInfo = s.faultInfo := rfl
@[simp] theorem setReg_faultPc (i : Fin 8) (v : Byte) : (s.setReg i v).faultPc = s.faultPc := rfl
@[simp] theorem setReg_mem (i : Fin 8) (v : Byte) : (s.setReg i v).mem = s.mem := rfl
@[simp] theorem setReg_outPort (i : Fin 8) (v : Byte) : (s.setReg i v).outPort = s.outPort := rfl
@[simp] theorem setReg_out (i : Fin 8) (v : Byte) : (s.setReg i v).out = s.out := rfl
@[simp] theorem setReg_inputs (i : Fin 8) (v : Byte) : (s.setReg i v).inputs = s.inputs := rfl

/-! `setPc` -/

@[simp] theorem setPc_regs (v : PcWord) : (s.setPc v).regs = s.regs := rfl
@[simp] theorem setPc_pc (v : PcWord) : (s.setPc v).pc = v := rfl
@[simp] theorem setPc_e (v : PcWord) : (s.setPc v).e = s.e := rfl
@[simp] theorem setPc_run (v : PcWord) : (s.setPc v).run = s.run := rfl
@[simp] theorem setPc_faultCode (v : PcWord) : (s.setPc v).faultCode = s.faultCode := rfl
@[simp] theorem setPc_faultInfo (v : PcWord) : (s.setPc v).faultInfo = s.faultInfo := rfl
@[simp] theorem setPc_faultPc (v : PcWord) : (s.setPc v).faultPc = s.faultPc := rfl
@[simp] theorem setPc_mem (v : PcWord) : (s.setPc v).mem = s.mem := rfl
@[simp] theorem setPc_outPort (v : PcWord) : (s.setPc v).outPort = s.outPort := rfl
@[simp] theorem setPc_out (v : PcWord) : (s.setPc v).out = s.out := rfl
@[simp] theorem setPc_inputs (v : PcWord) : (s.setPc v).inputs = s.inputs := rfl
@[simp] theorem setPc_reg (v : PcWord) (j : Fin 8) : (s.setPc v).reg j = s.reg j := rfl
@[simp] theorem setPc_sp (v : PcWord) : (s.setPc v).sp = s.sp := rfl

/-! `advance` -/

@[simp] theorem advance_regs (n : Nat) : (s.advance n).regs = s.regs := rfl
@[simp] theorem advance_pc (n : Nat) : (s.advance n).pc = s.pc + BitVec.ofNat 9 n := rfl
@[simp] theorem advance_e (n : Nat) : (s.advance n).e = s.e := rfl
@[simp] theorem advance_run (n : Nat) : (s.advance n).run = s.run := rfl
@[simp] theorem advance_faultCode (n : Nat) : (s.advance n).faultCode = s.faultCode := rfl
@[simp] theorem advance_faultInfo (n : Nat) : (s.advance n).faultInfo = s.faultInfo := rfl
@[simp] theorem advance_faultPc (n : Nat) : (s.advance n).faultPc = s.faultPc := rfl
@[simp] theorem advance_mem (n : Nat) : (s.advance n).mem = s.mem := rfl
@[simp] theorem advance_outPort (n : Nat) : (s.advance n).outPort = s.outPort := rfl
@[simp] theorem advance_out (n : Nat) : (s.advance n).out = s.out := rfl
@[simp] theorem advance_inputs (n : Nat) : (s.advance n).inputs = s.inputs := rfl
@[simp] theorem advance_reg (n : Nat) (j : Fin 8) : (s.advance n).reg j = s.reg j := rfl
@[simp] theorem advance_sp (n : Nat) : (s.advance n).sp = s.sp := rfl

/-! `setRun` -/

@[simp] theorem setRun_regs (r : RunState) : (s.setRun r).regs = s.regs := rfl
@[simp] theorem setRun_pc (r : RunState) : (s.setRun r).pc = s.pc := rfl
@[simp] theorem setRun_e (r : RunState) : (s.setRun r).e = s.e := rfl
@[simp] theorem setRun_run (r : RunState) : (s.setRun r).run = r := rfl
@[simp] theorem setRun_faultCode (r : RunState) : (s.setRun r).faultCode = s.faultCode := rfl
@[simp] theorem setRun_faultInfo (r : RunState) : (s.setRun r).faultInfo = s.faultInfo := rfl
@[simp] theorem setRun_faultPc (r : RunState) : (s.setRun r).faultPc = s.faultPc := rfl
@[simp] theorem setRun_mem (r : RunState) : (s.setRun r).mem = s.mem := rfl
@[simp] theorem setRun_outPort (r : RunState) : (s.setRun r).outPort = s.outPort := rfl
@[simp] theorem setRun_out (r : RunState) : (s.setRun r).out = s.out := rfl
@[simp] theorem setRun_inputs (r : RunState) : (s.setRun r).inputs = s.inputs := rfl
@[simp] theorem setRun_reg (r : RunState) (j : Fin 8) : (s.setRun r).reg j = s.reg j := rfl
@[simp] theorem setRun_sp (r : RunState) : (s.setRun r).sp = s.sp := rfl

/-! `setE` -/

@[simp] theorem setE_regs (v : Bool) : (s.setE v).regs = s.regs := rfl
@[simp] theorem setE_pc (v : Bool) : (s.setE v).pc = s.pc := rfl
@[simp] theorem setE_e (v : Bool) : (s.setE v).e = v := rfl
@[simp] theorem setE_run (v : Bool) : (s.setE v).run = s.run := rfl
@[simp] theorem setE_faultCode (v : Bool) : (s.setE v).faultCode = s.faultCode := rfl
@[simp] theorem setE_faultInfo (v : Bool) : (s.setE v).faultInfo = s.faultInfo := rfl
@[simp] theorem setE_faultPc (v : Bool) : (s.setE v).faultPc = s.faultPc := rfl
@[simp] theorem setE_mem (v : Bool) : (s.setE v).mem = s.mem := rfl
@[simp] theorem setE_outPort (v : Bool) : (s.setE v).outPort = s.outPort := rfl
@[simp] theorem setE_out (v : Bool) : (s.setE v).out = s.out := rfl
@[simp] theorem setE_inputs (v : Bool) : (s.setE v).inputs = s.inputs := rfl
@[simp] theorem setE_reg (v : Bool) (j : Fin 8) : (s.setE v).reg j = s.reg j := rfl
@[simp] theorem setE_sp (v : Bool) : (s.setE v).sp = s.sp := rfl

/-! `setMem` -/

@[simp] theorem setMem_regs (m : Memory) : (s.setMem m).regs = s.regs := rfl
@[simp] theorem setMem_pc (m : Memory) : (s.setMem m).pc = s.pc := rfl
@[simp] theorem setMem_e (m : Memory) : (s.setMem m).e = s.e := rfl
@[simp] theorem setMem_run (m : Memory) : (s.setMem m).run = s.run := rfl
@[simp] theorem setMem_faultCode (m : Memory) : (s.setMem m).faultCode = s.faultCode := rfl
@[simp] theorem setMem_faultInfo (m : Memory) : (s.setMem m).faultInfo = s.faultInfo := rfl
@[simp] theorem setMem_faultPc (m : Memory) : (s.setMem m).faultPc = s.faultPc := rfl
@[simp] theorem setMem_mem (m : Memory) : (s.setMem m).mem = m := rfl
@[simp] theorem setMem_outPort (m : Memory) : (s.setMem m).outPort = s.outPort := rfl
@[simp] theorem setMem_out (m : Memory) : (s.setMem m).out = s.out := rfl
@[simp] theorem setMem_inputs (m : Memory) : (s.setMem m).inputs = s.inputs := rfl
@[simp] theorem setMem_reg (m : Memory) (j : Fin 8) : (s.setMem m).reg j = s.reg j := rfl
@[simp] theorem setMem_sp (m : Memory) : (s.setMem m).sp = s.sp := rfl

/-! `emit` -/

@[simp] theorem emit_regs (v : Byte) : (emit v s).regs = s.regs := rfl
@[simp] theorem emit_pc (v : Byte) : (emit v s).pc = s.pc := rfl
@[simp] theorem emit_e (v : Byte) : (emit v s).e = s.e := rfl
@[simp] theorem emit_run (v : Byte) : (emit v s).run = s.run := rfl
@[simp] theorem emit_faultCode (v : Byte) : (emit v s).faultCode = s.faultCode := rfl
@[simp] theorem emit_faultInfo (v : Byte) : (emit v s).faultInfo = s.faultInfo := rfl
@[simp] theorem emit_faultPc (v : Byte) : (emit v s).faultPc = s.faultPc := rfl
@[simp] theorem emit_mem (v : Byte) : (emit v s).mem = s.mem := rfl
@[simp] theorem emit_outPort (v : Byte) : (emit v s).outPort = some v := rfl
@[simp] theorem emit_out (v : Byte) : (emit v s).out = s.out ++ [v] := rfl
@[simp] theorem emit_inputs (v : Byte) : (emit v s).inputs = s.inputs := rfl
@[simp] theorem emit_reg (v : Byte) (j : Fin 8) : (emit v s).reg j = s.reg j := rfl
@[simp] theorem emit_sp (v : Byte) : (emit v s).sp = s.sp := rfl

/-! `faultEntry` -/

@[simp] theorem faultEntry_regs (c : FaultCause) : (faultEntry c s).regs = s.regs := rfl
@[simp] theorem faultEntry_pc (c : FaultCause) : (faultEntry c s).pc = s.pc := rfl
@[simp] theorem faultEntry_e (c : FaultCause) : (faultEntry c s).e = s.e := rfl
@[simp] theorem faultEntry_run (c : FaultCause) : (faultEntry c s).run = .faulted := rfl
@[simp] theorem faultEntry_faultCode (c : FaultCause) : (faultEntry c s).faultCode = c.code := rfl
@[simp] theorem faultEntry_faultInfo (c : FaultCause) : (faultEntry c s).faultInfo = c.info := rfl
@[simp] theorem faultEntry_faultPc (c : FaultCause) : (faultEntry c s).faultPc = s.pc := rfl
@[simp] theorem faultEntry_mem (c : FaultCause) : (faultEntry c s).mem = s.mem := rfl
@[simp] theorem faultEntry_outPort (c : FaultCause) : (faultEntry c s).outPort = s.outPort := rfl
@[simp] theorem faultEntry_out (c : FaultCause) : (faultEntry c s).out = s.out := rfl
@[simp] theorem faultEntry_inputs (c : FaultCause) : (faultEntry c s).inputs = s.inputs := rfl
@[simp] theorem faultEntry_reg (c : FaultCause) (j : Fin 8) : (faultEntry c s).reg j = s.reg j := rfl
@[simp] theorem faultEntry_sp (c : FaultCause) : (faultEntry c s).sp = s.sp := rfl

/-! `beginStep` -/

@[simp] theorem beginStep_regs : (s.beginStep).regs = s.regs := rfl
@[simp] theorem beginStep_pc : (s.beginStep).pc = s.pc := rfl
@[simp] theorem beginStep_e : (s.beginStep).e = s.e := rfl
@[simp] theorem beginStep_run : (s.beginStep).run = s.run := rfl
@[simp] theorem beginStep_faultCode : (s.beginStep).faultCode = s.faultCode := rfl
@[simp] theorem beginStep_faultInfo : (s.beginStep).faultInfo = s.faultInfo := rfl
@[simp] theorem beginStep_faultPc : (s.beginStep).faultPc = s.faultPc := rfl
@[simp] theorem beginStep_mem : (s.beginStep).mem = s.mem := rfl
@[simp] theorem beginStep_outPort : (s.beginStep).outPort = none := rfl
@[simp] theorem beginStep_out : (s.beginStep).out = s.out := rfl
@[simp] theorem beginStep_inputs : (s.beginStep).inputs = s.inputs.tail := rfl
@[simp] theorem beginStep_reg (j : Fin 8) : (s.beginStep).reg j = s.reg j := rfl
@[simp] theorem beginStep_sp : (s.beginStep).sp = s.sp := rfl

/-! Reading a register after writing one. -/

@[simp] theorem setReg_reg_same (i : Fin 8) (v : Byte) : (s.setReg i v).reg i = v := by
  simp [State.reg, State.setReg]

theorem setReg_reg_ne (i j : Fin 8) (v : Byte) (h : j ≠ i) : (s.setReg i v).reg j = s.reg j := by
  have : (i : Nat) ≠ j := fun e => h (Fin.ext e.symm)
  simp [State.reg, State.setReg, this]

theorem setReg_reg (i j : Fin 8) (v : Byte) : (s.setReg i v).reg j = if j = i then v else s.reg j := by
  split
  · subst j; simp
  · rename_i h; exact setReg_reg_ne s i j v h

@[simp] theorem setReg_same (i : Fin 8) (v w : Byte) : (s.setReg i v).setReg i w = s.setReg i w := by
  simp [State.setReg]

@[simp] theorem setReg_sp (v : Byte) : (s.setReg 7 v).sp = v := setReg_reg_same s 7 v

@[simp] theorem setSp_eq (v : Byte) : s.setSp v = s.setReg 7 v := rfl

/-! The reset values (70_reset_and_hazards.md R123). -/

theorem resetWith_reg (c : Config) (i : Fin 8) :
    (State.resetWith c).reg i = if i = 7 then c.spReset else 0x00#8 := by
  match i with
  | 0 | 1 | 2 | 3 | 4 | 5 | 6 | 7 => rfl

end Sys2Proof.Machine
end

