-- ==== Sys2Proof/Laws/Ops.lean ====
section
/-!
SUPPORT. One law for each shared operation that says everything it can do. Proofs cite these and do not unfold.
-/

namespace Sys2Proof.Machine

/-! `Except` in `do` blocks. -/

@[simp] theorem except_bind_ok {ε α β : Type} (x : α) (f : α → Except ε β) : (Except.ok x >>= f) = f x := rfl

@[simp] theorem except_bind_error {ε α β : Type} (e : ε) (f : α → Except ε β) :
    ((Except.error e : Except ε α) >>= f) = Except.error e := rfl

/-! Registers. -/

theorem regIndex_of_lt {i : Byte} (h : i.toNat < 8) : regIndex i = .ok ⟨i.toNat, h⟩ := by simp [regIndex, h]

theorem regIndex_of_ge {i : Byte} (h : 8 ≤ i.toNat) : regIndex i = .error (.invalidRegister i) := by
  simp [regIndex, Nat.not_lt.mpr h]

theorem regRead_of_lt {i : Byte} (h : i.toNat < 8) (s : State) : regRead i s = .ok (s.reg ⟨i.toNat, h⟩) := by
  simp [regRead, regIndex_of_lt h]

theorem regRead_of_ge {i : Byte} (h : 8 ≤ i.toNat) (s : State) : regRead i s = .error (.invalidRegister i) := by
  simp [regRead, regIndex_of_ge h]

theorem regWrite_of_lt {i : Byte} (h : i.toNat < 8) (v : Byte) (s : State) :
    regWrite i v s = .ok (s.setReg ⟨i.toNat, h⟩ v) := by
  simp [regWrite, regIndex_of_lt h]

theorem regWrite_of_ge {i : Byte} (h : 8 ≤ i.toNat) (v : Byte) (s : State) :
    regWrite i v s = .error (.invalidRegister i) := by
  simp [regWrite, regIndex_of_ge h]

theorem jumpToReg_of_lt {a : Byte} (h : a.toNat < 8) (s : State) :
    jumpToReg a s = .ok (s.setPc (byteToPc (s.reg ⟨a.toNat, h⟩))) := by
  simp [jumpToReg, regRead_of_lt h]

theorem jumpToReg_of_ge {a : Byte} (h : 8 ≤ a.toNat) (s : State) :
    jumpToReg a s = .error (.invalidRegister a) := by
  simp [jumpToReg, regRead_of_ge h]

/-! The program counter. -/

theorem byteToPc_toNat (v : Byte) : (byteToPc v).toNat = v.toNat := by
  simp only [byteToPc, BitVec.toNat_setWidth]
  have := v.isLt
  omega

theorem byteToPc_le (v : Byte) : (byteToPc v).toNat ≤ 256 := by
  rw [byteToPc_toNat]; have := v.isLt; omega

/-- From an address where an instruction of length n fits, the advance does not wrap (30_encoding.md R85). -/
theorem advance_toNat (s : State) (n : Nat) (h : s.pc.toNat + n ≤ 256) :
    (s.advance n).pc.toNat = s.pc.toNat + n := by
  simp only [advance_pc, BitVec.toNat_add, BitVec.toNat_ofNat]
  omega

/-! Memory accesses. -/

theorem memRead_nat {a : Nat} (h : a < 256) (s : State) : memRead a s = .ok (s.mem.read a) := by
  have : ¬((a : Int) < 0 ∨ (a : Int) > 255) := by omega
  simp only [memRead, this, if_false, Int.toNat_natCast]

theorem memRead_out {a : Int} (h : a < 0 ∨ a > 255) (s : State) : memRead a s = .error (.outOfBounds a) := by
  simp only [memRead, h, if_true]

theorem memWrite_nat {a : Nat} (h : a < 256) (v : Byte) (s : State) :
    memWrite a v s = .ok (s.setMem (s.mem.write a v)) := by
  have : ¬((a : Int) < 0 ∨ (a : Int) > 255) := by omega
  simp only [memWrite, this, if_false, Int.toNat_natCast]

theorem memWrite_out {a : Int} (h : a < 0 ∨ a > 255) (v : Byte) (s : State) :
    memWrite a v s = .error (.outOfBounds a) := by
  simp only [memWrite, h, if_true]

/-! The stack unit. -/

theorem push_zero {s : State} (h : s.sp = 0#8) (v : Byte) : push v s = .error (.outOfBounds (-1)) := by
  simp [push, pushAddress, h]

theorem push_pos {s : State} (h : s.sp ≠ 0#8) (v : Byte) :
    push v s = .ok ((s.setReg 7 (s.sp - 1#8)).setMem (s.mem.write (s.sp.toNat - 1) v)) := by
  have hp : 0 < s.sp.toNat := by
    rcases Nat.eq_zero_or_pos s.sp.toNat with h0 | h0
    · exact absurd (BitVec.eq_of_toNat_eq (by simpa using h0)) h
    · exact h0
  have hlt := s.sp.isLt
  have ha : pushAddress s = ((s.sp.toNat - 1 : Nat) : Int) := by unfold pushAddress; omega
  have hv : BitVec.ofInt 8 (pushAddress s) = s.sp - 1#8 := by
    rw [ha]; apply BitVec.eq_of_toNat_eq; simp [BitVec.toNat_sub]; omega
  have hn : ¬(pushAddress s < 0) := by omega
  simp only [push, hn, if_false, hv, setSp_eq]
  rw [ha, memWrite_nat (by omega)]
  rfl

/-- Everything a push can do (20_memory.md R51). -/
theorem push_cases (v : Byte) (s : State) :
    (s.sp = 0#8 ∧ push v s = .error (.outOfBounds (-1))) ∨
    (s.sp ≠ 0#8 ∧ push v s = .ok ((s.setReg 7 (s.sp - 1#8)).setMem (s.mem.write (s.sp.toNat - 1) v))) := by
  by_cases h : s.sp = 0#8
  · exact .inl ⟨h, push_zero h v⟩
  · exact .inr ⟨h, push_pos h v⟩

theorem pop_top {s : State} (h : s.sp = 0xFF#8) : pop s = .error (.outOfBounds 256) := by
  simp only [pop, h]
  rw [show ((0xFF#8 : Byte).toNat : Int) = ((255 : Nat) : Int) from rfl, memRead_nat (by omega)]
  rfl

theorem pop_below {s : State} (h : s.sp ≠ 0xFF#8) :
    pop s = .ok (s.mem.read s.sp.toNat, s.setReg 7 (s.sp + 1#8)) := by
  have hlt := s.sp.isLt
  have hne : s.sp.toNat ≠ 255 := fun e => h (BitVec.eq_of_toNat_eq (by simpa using e))
  have hn : ¬((s.sp.toNat : Int) + 1 > 255) := by omega
  have hv : BitVec.ofInt 8 ((s.sp.toNat : Int) + 1) = s.sp + 1#8 := by
    apply BitVec.eq_of_toNat_eq
    simp [BitVec.toNat_ofInt, BitVec.toNat_add]
    omega
  simp only [pop, memRead_nat hlt, except_bind_ok, hn, if_false, setSp_eq, hv]

/-- Everything a pop can do (20_memory.md R52). -/
theorem pop_cases (s : State) :
    (s.sp = 0xFF#8 ∧ pop s = .error (.outOfBounds 256)) ∨
    (s.sp ≠ 0xFF#8 ∧ pop s = .ok (s.mem.read s.sp.toNat, s.setReg 7 (s.sp + 1#8))) := by
  by_cases h : s.sp = 0xFF#8
  · exact .inl ⟨h, pop_top h⟩
  · exact .inr ⟨h, pop_below h⟩

/-! The return address (43_control_transfer.md R98). -/

theorem returnAddress_fits {s : State} (h : s.pc.toNat + 2 ≤ 255) :
    returnAddress s = .ok (BitVec.ofNat 8 (s.pc.toNat + 2)) := by
  have : ¬(s.pc.toNat + 2 > 255) := by omega
  simp only [returnAddress, this, if_false]

theorem returnAddress_big {s : State} (h : 255 < s.pc.toNat + 2) :
    returnAddress s = .error (.outOfBounds ((s.pc.toNat : Int) + 2)) := by
  simp only [returnAddress, h, if_true]

/-! The ALU (41_register_alu.md R89, R90). -/

@[simp] theorem alu_add (x y : Byte) : alu tagAdd x y = .ok ⟨some (x + y), none⟩ := by
  have : BitVec.ofNat 8 (x.toNat + y.toNat) = x + y := by
    apply BitVec.eq_of_toNat_eq; simp [BitVec.toNat_add]
  simp [alu, this]

@[simp] theorem alu_multiply (x y : Byte) : alu tagMultiply x y = .ok ⟨some (x * y), none⟩ := by
  have : BitVec.ofNat 8 (x.toNat * y.toNat) = x * y := by
    apply BitVec.eq_of_toNat_eq; simp [BitVec.toNat_mul]
  simp [alu, tagAdd, tagMultiply, this]

@[simp] theorem alu_compare (x y : Byte) : alu tagCompare x y = .ok ⟨none, some (decide (x = y))⟩ := by
  simp [alu, tagAdd, tagMultiply, tagCompare, equalFlag]

/-! Ending an instruction. -/

@[simp] theorem commit_ok (s t : State) : commit s (.ok t) = .next t := rfl

@[simp] theorem commit_error (s : State) (c : FaultCause) : commit s (.error c) = .next (faultEntry c s) := rfl

/-- An instruction ends in one of two ways: its whole effect, or a fault taken from its start. -/
theorem commit_cases {s t : State} {r : Except FaultCause State} (h : commit s r = .next t) :
    r = .ok t ∨ ∃ c, r = .error c ∧ t = faultEntry c s := by
  cases r with
  | ok u => exact .inl (by simpa using h)
  | error c => exact .inr ⟨c, rfl, by simpa using h.symm⟩

end Sys2Proof.Machine
end

