-- ==== Sys2Proof/Laws/Fetch.lean ====
section
/-!
SUPPORT. What the fetch can do, said through the decoder of byte lists.
-/

namespace Sys2Proof.Machine

theorem bytesFrom_zero (s : State) (p : Nat) : bytesFrom s p 0 = [] := rfl

theorem bytesFrom_succ_of_lt (s : State) (p n : Nat) (h : p < 256) :
    bytesFrom s p (n + 1) = s.mem.read p :: bytesFrom s (p + 1) n := by simp [bytesFrom, h]

theorem bytesFrom_of_ge (s : State) (p n : Nat) (h : 256 ≤ p) : bytesFrom s p n = [] := by
  cases n with
  | zero => rfl
  | succ n => simp [bytesFrom, Nat.not_lt.mpr h]

theorem memRead_nat_of_ge {a : Nat} (h : 256 ≤ a) (s : State) : memRead a s = .error (.outOfBounds a) :=
  memRead_out (by omega) s

theorem memRead_succ (p k : Nat) (s : State) : memRead ((p : Int) + k) s = memRead ((p + k : Nat) : Int) s := by
  rw [Int.natCast_add]

/-- The fault a fetch at p takes where the decoder finds no instruction in the bytes of memory (30_encoding.md R79). -/
def fetchCause (p : Nat) : DecodeError → FaultCause
  | .noOpcode => .outOfBounds p
  | .illegalOpcode op => .illegalInstruction op
  | .missingOperandA _ => .outOfBounds ((p + 1 : Nat) : Int)
  | .missingOperandB _ => .outOfBounds ((p + 2 : Nat) : Int)

/-- The BoundsAware fetch is the decoder on the bytes of memory from p up; where there is no instruction, the fault
names what was missing. -/
theorem fetchBoundsAware_eq_decode (p : Nat) (s : State) :
    fetchBoundsAware p s =
      match decode (bytesFrom s p 3) with
      | .ok (i, _) => .ok i
      | .error e => .error (fetchCause p e) := by
  have h1 : memRead ((p : Int) + 1) s = memRead ((p + 1 : Nat) : Int) s := memRead_succ p 1 s
  have h2 : memRead ((p : Int) + 2) s = memRead ((p + 2 : Nat) : Int) s := memRead_succ p 2 s
  unfold fetchBoundsAware
  rw [h1, h2]
  by_cases hp : p < 256
  · rw [memRead_nat hp, bytesFrom_succ_of_lt s p 2 hp]
    simp only [except_bind_ok, decode]
    cases hf : formatOf (s.mem.read p) with
    | none => rfl
    | some f =>
      by_cases hp1 : p + 1 < 256
      · rw [memRead_nat hp1, bytesFrom_succ_of_lt s (p + 1) 1 hp1]
        by_cases hp2 : p + 2 < 256
        · rw [memRead_nat hp2, bytesFrom_succ_of_lt s (p + 1 + 1) 0 hp2]
          cases f <;> rfl
        · rw [memRead_nat_of_ge (by omega), bytesFrom_of_ge s (p + 1 + 1) 1 (by omega)]
          cases f <;> rfl
      · rw [memRead_nat_of_ge (a := p + 1) (by omega), bytesFrom_of_ge s (p + 1) 2 (by omega)]
        cases f <;> rfl
  · rw [memRead_nat_of_ge (by omega), bytesFrom_of_ge s p 3 (by omega)]
    rfl

end Sys2Proof.Machine
end

