-- ==== Sys2Proof/Laws/Exec.lean ====
section
/-!
SUPPORT. Everything an instruction and a step can do, said once: an instruction either completes with its whole effect or
takes one of its faults. Proofs cite these and do not unfold the meanings.
-/

namespace Sys2Proof.Machine

/-- The state after an instruction that completes, and when it does. -/
def Completed (i : Instr) (s t : State) : Prop :=
  match i with
  | .hlt => t = (s.advance 1).setRun .halted
  | .ret => s.sp ≠ 0xFF#8 ∧ t = (s.setReg 7 (s.sp + 1#8)).setPc (byteToPc (s.mem.read s.sp.toNat))
  | .prn a => ∃ h : a.toNat < 8, t = (emit (s.reg ⟨a.toNat, h⟩) s).advance 2
  | .push a => ∃ h : a.toNat < 8, s.sp ≠ 0#8 ∧
      t = ((s.setReg 7 (s.sp - 1#8)).setMem (s.mem.write (s.sp.toNat - 1) (s.reg ⟨a.toNat, h⟩))).advance 2
  | .pop a => ∃ h : a.toNat < 8, s.sp ≠ 0xFF#8 ∧
      t = ((s.setReg 7 (s.sp + 1#8)).setReg ⟨a.toNat, h⟩ (s.mem.read s.sp.toNat)).advance 2
  | .call a => ∃ h : a.toNat < 8, s.pc.toNat + 2 ≤ 255 ∧ s.sp ≠ 0#8 ∧
      t = ((s.setReg 7 (s.sp - 1#8)).setMem (s.mem.write (s.sp.toNat - 1) (BitVec.ofNat 8 (s.pc.toNat + 2)))).setPc
            (byteToPc ((s.setReg 7 (s.sp - 1#8)).reg ⟨a.toNat, h⟩))
  | .ldi a imm => ∃ h : a.toNat < 8, t = (s.setReg ⟨a.toNat, h⟩ imm).advance 3
  | .add a b => ∃ (ha : a.toNat < 8) (hb : b.toNat < 8),
      t = (s.setReg ⟨a.toNat, ha⟩ (s.reg ⟨a.toNat, ha⟩ + s.reg ⟨b.toNat, hb⟩)).advance 3
  | .mul a b => ∃ (ha : a.toNat < 8) (hb : b.toNat < 8),
      t = (s.setReg ⟨a.toNat, ha⟩ (s.reg ⟨a.toNat, ha⟩ * s.reg ⟨b.toNat, hb⟩)).advance 3
  | .jmp a => ∃ h : a.toNat < 8, t = s.setPc (byteToPc (s.reg ⟨a.toNat, h⟩))
  | .jeq a => (s.e = false ∧ t = s.advance 2) ∨
      (s.e = true ∧ ∃ h : a.toNat < 8, t = s.setPc (byteToPc (s.reg ⟨a.toNat, h⟩)))
  | .jne a => (s.e = true ∧ t = s.advance 2) ∨
      (s.e = false ∧ ∃ h : a.toNat < 8, t = s.setPc (byteToPc (s.reg ⟨a.toNat, h⟩)))
  | .cmp a b => ∃ (ha : a.toNat < 8) (hb : b.toNat < 8),
      t = (s.setE (decide (s.reg ⟨a.toNat, ha⟩ = s.reg ⟨b.toNat, hb⟩))).advance 3

/-- The fault an instruction raises, and when (60_exceptions.md R112). -/
def Raises (i : Instr) (s : State) (c : FaultCause) : Prop :=
  match i with
  | .hlt => False
  | .ret => s.sp = 0xFF#8 ∧ c = .outOfBounds 256
  | .prn a => 8 ≤ a.toNat ∧ c = .invalidRegister a
  | .push a => (8 ≤ a.toNat ∧ c = .invalidRegister a) ∨ (a.toNat < 8 ∧ s.sp = 0#8 ∧ c = .outOfBounds (-1))
  | .pop a => (s.sp = 0xFF#8 ∧ c = .outOfBounds 256) ∨ (s.sp ≠ 0xFF#8 ∧ 8 ≤ a.toNat ∧ c = .invalidRegister a)
  | .call a => (255 < s.pc.toNat + 2 ∧ c = .outOfBounds ((s.pc.toNat : Int) + 2)) ∨
      (s.pc.toNat + 2 ≤ 255 ∧ s.sp = 0#8 ∧ c = .outOfBounds (-1)) ∨
      (s.pc.toNat + 2 ≤ 255 ∧ s.sp ≠ 0#8 ∧ 8 ≤ a.toNat ∧ c = .invalidRegister a)
  | .ldi a _ => 8 ≤ a.toNat ∧ c = .invalidRegister a
  | .add a b => (8 ≤ a.toNat ∧ c = .invalidRegister a) ∨ (a.toNat < 8 ∧ 8 ≤ b.toNat ∧ c = .invalidRegister b)
  | .mul a b => (8 ≤ a.toNat ∧ c = .invalidRegister a) ∨ (a.toNat < 8 ∧ 8 ≤ b.toNat ∧ c = .invalidRegister b)
  | .jmp a => 8 ≤ a.toNat ∧ c = .invalidRegister a
  | .jeq a => s.e = true ∧ 8 ≤ a.toNat ∧ c = .invalidRegister a
  | .jne a => s.e = false ∧ 8 ≤ a.toNat ∧ c = .invalidRegister a
  | .cmp a b => (8 ≤ a.toNat ∧ c = .invalidRegister a) ∨ (a.toNat < 8 ∧ 8 ≤ b.toNat ∧ c = .invalidRegister b)

/-! What the operation shared by ADD, MUL and CMP does. -/

theorem aluInstr_of_lt {a b : Byte} (ha : a.toNat < 8) (hb : b.toNat < 8) (tag : BitVec 2) (s : State) :
    aluInstr tag a b s = (do
      let o ← alu tag (s.reg ⟨a.toNat, ha⟩) (s.reg ⟨b.toNat, hb⟩)
      let s ← writeResult a o.result s
      .ok ((writeFlag o.flagUpdate s).advance 3)) := by
  simp [aluInstr, regRead_of_lt ha, regRead_of_lt hb]

theorem aluInstr_of_ge_a {a : Byte} (ha : 8 ≤ a.toNat) (b : Byte) (tag : BitVec 2) (s : State) :
    aluInstr tag a b s = .error (.invalidRegister a) := by
  simp [aluInstr, regRead_of_ge ha]

theorem aluInstr_of_ge_b {a b : Byte} (ha : a.toNat < 8) (hb : 8 ≤ b.toNat) (tag : BitVec 2) (s : State) :
    aluInstr tag a b s = .error (.invalidRegister b) := by
  simp [aluInstr, regRead_of_lt ha, regRead_of_ge hb]

/-- An ALU instruction ends in its effect or in the fault of its first bad register. -/
theorem aluInstr_cases (a b : Byte) (tag : BitVec 2) (s : State) :
    (∃ (ha : a.toNat < 8) (hb : b.toNat < 8), aluInstr tag a b s = (do
      let o ← alu tag (s.reg ⟨a.toNat, ha⟩) (s.reg ⟨b.toNat, hb⟩)
      let s ← writeResult a o.result s
      .ok ((writeFlag o.flagUpdate s).advance 3))) ∨
    (8 ≤ a.toNat ∧ aluInstr tag a b s = .error (.invalidRegister a)) ∨
    (a.toNat < 8 ∧ 8 ≤ b.toNat ∧ aluInstr tag a b s = .error (.invalidRegister b)) := by
  rcases Nat.lt_or_ge a.toNat 8 with ha | ha
  · rcases Nat.lt_or_ge b.toNat 8 with hb | hb
    · exact .inl ⟨ha, hb, aluInstr_of_lt ha hb tag s⟩
    · exact .inr (.inr ⟨ha, hb, aluInstr_of_ge_b ha hb tag s⟩)
  · exact .inr (.inl ⟨ha, aluInstr_of_ge_a ha b tag s⟩)

theorem jumpToReg_cases (a : Byte) (s : State) :
    (∃ h : a.toNat < 8, jumpToReg a s = .ok (s.setPc (byteToPc (s.reg ⟨a.toNat, h⟩)))) ∨
    (8 ≤ a.toNat ∧ jumpToReg a s = .error (.invalidRegister a)) := by
  rcases Nat.lt_or_ge a.toNat 8 with ha | ha
  · exact .inl ⟨ha, jumpToReg_of_lt ha s⟩
  · exact .inr ⟨ha, jumpToReg_of_ge ha s⟩

/-- Every instruction answers a next state: its effect, or a fault of its own taken from the state it started in. -/
theorem exec_next (i : Instr) (s : State) :
    ∃ t, exec i s = .next t ∧ (Completed i s t ∨ ∃ c, Raises i s c ∧ t = faultEntry c s) := by
  cases i with
  | hlt => exact ⟨_, rfl, .inl rfl⟩
  | ret =>
    rcases pop_cases s with ⟨h, hp⟩ | ⟨h, hp⟩
    · exact ⟨_, by simp [exec, execRet, hp], .inr ⟨_, ⟨h, rfl⟩, rfl⟩⟩
    · exact ⟨_, by simp [exec, execRet, hp], .inl ⟨h, rfl⟩⟩
  | prn a =>
    rcases Nat.lt_or_ge a.toNat 8 with h | h
    · exact ⟨_, by simp [exec, execPrn, regRead_of_lt h], .inl ⟨h, rfl⟩⟩
    · exact ⟨_, by simp [exec, execPrn, regRead_of_ge h], .inr ⟨_, ⟨h, rfl⟩, rfl⟩⟩
  | push a =>
    rcases Nat.lt_or_ge a.toNat 8 with h | h
    · rcases push_cases (s.reg ⟨a.toNat, h⟩) s with ⟨h0, hp⟩ | ⟨h0, hp⟩
      · exact ⟨_, by simp [exec, execPush, regRead_of_lt h, hp], .inr ⟨_, .inr ⟨h, h0, rfl⟩, rfl⟩⟩
      · exact ⟨_, by simp only [exec, execPush, regRead_of_lt h, hp, except_bind_ok, commit_ok], .inl ⟨h, h0, rfl⟩⟩
    · exact ⟨_, by simp [exec, execPush, regRead_of_ge h], .inr ⟨_, .inl ⟨h, rfl⟩, rfl⟩⟩
  | pop a =>
    rcases pop_cases s with ⟨h0, hp⟩ | ⟨h0, hp⟩
    · exact ⟨_, by simp [exec, execPop, hp], .inr ⟨_, .inl ⟨h0, rfl⟩, rfl⟩⟩
    · rcases Nat.lt_or_ge a.toNat 8 with h | h
      · exact ⟨_, by simp only [exec, execPop, hp, except_bind_ok, regWrite_of_lt h, commit_ok], .inl ⟨h, h0, rfl⟩⟩
      · exact ⟨_, by simp only [exec, execPop, hp, except_bind_ok, regWrite_of_ge h, except_bind_error, commit_error],
          .inr ⟨_, .inr ⟨h0, h, rfl⟩, rfl⟩⟩
  | call a =>
    rcases Nat.lt_or_ge 255 (s.pc.toNat + 2) with hr | hr
    · exact ⟨_, by simp only [exec, execCall, returnAddress_big hr, except_bind_error, commit_error],
        .inr ⟨_, .inl ⟨hr, rfl⟩, rfl⟩⟩
    · rcases push_cases (BitVec.ofNat 8 (s.pc.toNat + 2)) s with ⟨h0, hp⟩ | ⟨h0, hp⟩
      · exact ⟨_, by simp only [exec, execCall, returnAddress_fits hr, hp, except_bind_ok, except_bind_error, commit_error],
          .inr ⟨_, .inr (.inl ⟨hr, h0, rfl⟩), rfl⟩⟩
      · rcases Nat.lt_or_ge a.toNat 8 with h | h
        · exact ⟨_, by simp only [exec, execCall, returnAddress_fits hr, hp, except_bind_ok, jumpToReg_of_lt h, commit_ok, setMem_reg],
            .inl ⟨h, hr, h0, rfl⟩⟩
        · exact ⟨_, by simp only [exec, execCall, returnAddress_fits hr, hp, except_bind_ok, jumpToReg_of_ge h, commit_error],
            .inr ⟨_, .inr (.inr ⟨hr, h0, h, rfl⟩), rfl⟩⟩
  | ldi a imm =>
    rcases Nat.lt_or_ge a.toNat 8 with h | h
    · exact ⟨_, by simp only [exec, execLdi, regWrite_of_lt h, except_bind_ok, commit_ok], .inl ⟨h, rfl⟩⟩
    · exact ⟨_, by simp only [exec, execLdi, regWrite_of_ge h, except_bind_error, commit_error], .inr ⟨_, ⟨h, rfl⟩, rfl⟩⟩
  | add a b =>
    rcases aluInstr_cases a b tagAdd s with ⟨ha, hb, h⟩ | ⟨ha, h⟩ | ⟨ha, hb, h⟩
    · exact ⟨_, by simp only [exec, execAdd, h, alu_add, except_bind_ok, writeResult, regWrite_of_lt ha, writeFlag, commit_ok],
        .inl ⟨ha, hb, rfl⟩⟩
    · exact ⟨_, by simp only [exec, execAdd, h, commit_error], .inr ⟨_, .inl ⟨ha, rfl⟩, rfl⟩⟩
    · exact ⟨_, by simp only [exec, execAdd, h, commit_error], .inr ⟨_, .inr ⟨ha, hb, rfl⟩, rfl⟩⟩
  | mul a b =>
    rcases aluInstr_cases a b tagMultiply s with ⟨ha, hb, h⟩ | ⟨ha, h⟩ | ⟨ha, hb, h⟩
    · exact ⟨_, by simp only [exec, execMul, h, alu_multiply, except_bind_ok, writeResult, regWrite_of_lt ha, writeFlag, commit_ok],
        .inl ⟨ha, hb, rfl⟩⟩
    · exact ⟨_, by simp only [exec, execMul, h, commit_error], .inr ⟨_, .inl ⟨ha, rfl⟩, rfl⟩⟩
    · exact ⟨_, by simp only [exec, execMul, h, commit_error], .inr ⟨_, .inr ⟨ha, hb, rfl⟩, rfl⟩⟩
  | jmp a =>
    rcases jumpToReg_cases a s with ⟨h, hj⟩ | ⟨h, hj⟩
    · exact ⟨_, by simp only [exec, execJmp, hj, commit_ok], .inl ⟨h, rfl⟩⟩
    · exact ⟨_, by simp only [exec, execJmp, hj, commit_error], .inr ⟨_, ⟨h, rfl⟩, rfl⟩⟩
  | jeq a =>
    cases he : s.e with
    | false => exact ⟨_, by simp [exec, execJeq, jumpIf, takenIfEqual, he], .inl (.inl ⟨he, rfl⟩)⟩
    | true =>
      rcases jumpToReg_cases a s with ⟨h, hj⟩ | ⟨h, hj⟩
      · exact ⟨_, by simp [exec, execJeq, jumpIf, takenIfEqual, he, hj], .inl (.inr ⟨he, h, rfl⟩)⟩
      · exact ⟨_, by simp [exec, execJeq, jumpIf, takenIfEqual, he, hj], .inr ⟨_, ⟨he, h, rfl⟩, rfl⟩⟩
  | jne a =>
    cases he : s.e with
    | true => exact ⟨_, by simp [exec, execJne, jumpIf, takenIfNotEqual, he], .inl (.inl ⟨he, rfl⟩)⟩
    | false =>
      rcases jumpToReg_cases a s with ⟨h, hj⟩ | ⟨h, hj⟩
      · exact ⟨_, by simp [exec, execJne, jumpIf, takenIfNotEqual, he, hj], .inl (.inr ⟨he, h, rfl⟩)⟩
      · exact ⟨_, by simp [exec, execJne, jumpIf, takenIfNotEqual, he, hj], .inr ⟨_, ⟨he, h, rfl⟩, rfl⟩⟩
  | cmp a b =>
    rcases aluInstr_cases a b tagCompare s with ⟨ha, hb, h⟩ | ⟨ha, h⟩ | ⟨ha, hb, h⟩
    · exact ⟨_, by simp only [exec, execCmp, h, alu_compare, except_bind_ok, writeResult, writeFlag, commit_ok],
        .inl ⟨ha, hb, rfl⟩⟩
    · exact ⟨_, by simp only [exec, execCmp, h, commit_error], .inr ⟨_, .inl ⟨ha, rfl⟩, rfl⟩⟩
    · exact ⟨_, by simp only [exec, execCmp, h, commit_error], .inr ⟨_, .inr ⟨ha, hb, rfl⟩, rfl⟩⟩

/-- The inversion of `exec`: what follows from an instruction having answered a next state. -/
theorem exec_cases {i : Instr} {s t : State} (h : exec i s = .next t) :
    Completed i s t ∨ ∃ c, Raises i s c ∧ t = faultEntry c s := by
  obtain ⟨u, hu, hc⟩ := exec_next i s
  rw [h] at hu
  cases hu
  exact hc

/-- The cases of a step (10_state.md R32): reset, an idle step, an instruction or a fault of its fetch, or nothing. -/
theorem stepWith_cases {c : Config} {s t : State} (h : stepWith c s = .next t) :
    (s.input.rst = true ∧ t = afterRst c s) ∨
    (s.input.rst = false ∧ s.run = .idle ∧ t = idleStep s.input s.beginStep) ∨
    (s.input.rst = false ∧ s.run = .running ∧
      ((∃ f, fetch c.fetchPolicy s.beginStep = .error f ∧ t = faultEntry f s.beginStep) ∨
       (∃ i, fetch c.fetchPolicy s.beginStep = .ok i ∧ exec i s.beginStep = .next t))) ∨
    (s.input.rst = false ∧ (s.run = .halted ∨ s.run = .faulted) ∧ t = s.beginStep) := by
  simp only [stepWith, cycle] at h
  cases hr : s.input.rst with
  | true => left; simpa [hr, eq_comm] using h
  | false =>
    right
    simp only [hr, Bool.false_eq_true, if_false] at h
    cases hs : s.run with
    | idle => left; simpa [hs, eq_comm] using h
    | running =>
      right; left
      simp only [hs, runInstruction] at h
      refine ⟨rfl, rfl, ?_⟩
      cases hf : fetch c.fetchPolicy s.beginStep with
      | error f => rw [hf] at h; exact .inl ⟨f, rfl, by simpa [eq_comm] using h⟩
      | ok i => rw [hf] at h; exact .inr ⟨i, rfl, h⟩
    | halted => right; right; simpa [hs, eq_comm] using h
    | faulted => right; right; simpa [hs, eq_comm] using h

/-! The fetch reads memory and pc only. -/

theorem memRead_congr {s s' : State} (h : s'.mem = s.mem) (a : Int) : memRead a s' = memRead a s := by
  simp [memRead, h]

theorem fetchAt_congr {s s' : State} (h : s'.mem = s.mem) (pol : FetchPolicy) (p : Nat) :
    fetchAt pol p s' = fetchAt pol p s := by
  cases pol <;> simp only [fetchAt, fetchBoundsAware, fetchStrictThree, memRead_congr h]

@[simp] theorem fetch_beginStep (pol : FetchPolicy) (s : State) : fetch pol s.beginStep = fetch pol s :=
  fetchAt_congr (s := s) rfl pol _

end Sys2Proof.Machine
end

