-- ==== Sys2Proof/Laws/PerInstr.lean ====
section
/-!
SUPPORT. Statements made of every instruction, one lemma per constructor.
-/

namespace Sys2Proof.Laws

namespace EncodedLength

/-- The encoding of an instruction is as long as its row of 30_encoding.md R66 says, and the decoder's table gives its
opcode that length. -/
def Statement (i : Instr) : Prop :=
  (encode i).length = i.length ∧ (formatOf i.opcode).map Format.length = some i.length

theorem hlt : Statement .hlt := ⟨rfl, rfl⟩
theorem ret : Statement .ret := ⟨rfl, rfl⟩
theorem prn (a : Byte) : Statement (.prn a) := ⟨rfl, rfl⟩
theorem push (a : Byte) : Statement (.push a) := ⟨rfl, rfl⟩
theorem pop (a : Byte) : Statement (.pop a) := ⟨rfl, rfl⟩
theorem call (a : Byte) : Statement (.call a) := ⟨rfl, rfl⟩
theorem ldi (a imm : Byte) : Statement (.ldi a imm) := ⟨rfl, rfl⟩
theorem add (a b : Byte) : Statement (.add a b) := ⟨rfl, rfl⟩
theorem mul (a b : Byte) : Statement (.mul a b) := ⟨rfl, rfl⟩
theorem jmp (a : Byte) : Statement (.jmp a) := ⟨rfl, rfl⟩
theorem jeq (a : Byte) : Statement (.jeq a) := ⟨rfl, rfl⟩
theorem jne (a : Byte) : Statement (.jne a) := ⟨rfl, rfl⟩
theorem cmp (a b : Byte) : Statement (.cmp a b) := ⟨rfl, rfl⟩

end EncodedLength

end Sys2Proof.Laws
end

