-- ==== Sys2Proof/Tests/Slice0.lean ====
section
/-!
SUPPORT. Tests. Expected results come from the vectors of spec/95_test_vectors.md (named L1.x and L2.x), from the examples
in the rules, or from hand calculation with the rule named. The `witness_` theorems give, for each obligation with
hypotheses, values that meet them.
-/

namespace Sys2Proof.Tests

open Sys2Proof.Machine

/-- A field of the next state, if the outcome is one. -/
def got {α : Type} (o : Outcome) (f : State → α) : Option α :=
  match o with
  | .next t => some (f t)
  | .fault _ => none
  | .refused _ => none

/-- The default start state of 95_test_vectors.md with an image. -/
def start (image : List Byte) : State := launch Config.spec image

/-- A Running core with an image placed at an address, where pc stands. -/
def startAt (p : Nat) (image : List Byte) : State :=
  { State.reset with mem := Memory.writeBytes [] p image, pc := BitVec.ofNat 9 p, run := .running }

/-- The fault record and the run state: what a fault entry writes. -/
def record (s : State) : RunState × BitVec 3 × BitVec 16 × PcWord := (s.run, s.faultCode, s.faultInfo, s.faultPc)

/-! ## WellFormed: each check refuses an ill-formed term -/

theorem test_wellFormed_prn : (Instr.prn 8#8).wellFormed = false ∧ (Instr.prn 7#8).wellFormed = true := by decide
theorem test_wellFormed_push : (Instr.push 8#8).wellFormed = false ∧ (Instr.push 7#8).wellFormed = true := by decide
theorem test_wellFormed_pop : (Instr.pop 8#8).wellFormed = false ∧ (Instr.pop 7#8).wellFormed = true := by decide
theorem test_wellFormed_call : (Instr.call 255#8).wellFormed = false ∧ (Instr.call 0#8).wellFormed = true := by decide
theorem test_wellFormed_ldi : (Instr.ldi 8#8 0#8).wellFormed = false ∧ (Instr.ldi 7#8 255#8).wellFormed = true := by decide
theorem test_wellFormed_add : (Instr.add 8#8 0#8).wellFormed = false ∧ (Instr.add 0#8 8#8).wellFormed = false ∧
    (Instr.add 7#8 7#8).wellFormed = true := by decide
theorem test_wellFormed_mul : (Instr.mul 8#8 0#8).wellFormed = false ∧ (Instr.mul 0#8 8#8).wellFormed = false ∧
    (Instr.mul 7#8 7#8).wellFormed = true := by decide
theorem test_wellFormed_cmp : (Instr.cmp 8#8 0#8).wellFormed = false ∧ (Instr.cmp 0#8 8#8).wellFormed = false ∧
    (Instr.cmp 7#8 7#8).wellFormed = true := by decide
theorem test_wellFormed_jmp : (Instr.jmp 8#8).wellFormed = false ∧ (Instr.jmp 7#8).wellFormed = true := by decide
theorem test_wellFormed_jeq : (Instr.jeq 8#8).wellFormed = false ∧ (Instr.jeq 7#8).wellFormed = true := by decide
theorem test_wellFormed_jne : (Instr.jne 8#8).wellFormed = false ∧ (Instr.jne 7#8).wellFormed = true := by decide

/-! ## Decoding: words written out from 30_encoding.md R61 to R66 (opcode, operand_a, operand_b) -/

theorem test_decode_hlt : decode [0b00000001#8, 0xFF#8] = .ok (.hlt, [0xFF#8]) := by decide
theorem test_decode_ret : decode [0b00010001#8] = .ok (.ret, []) := by decide
theorem test_decode_prn : decode [0b01000111#8, 0b00000010#8, 0x01#8] = .ok (.prn 2#8, [0x01#8]) := by decide
theorem test_decode_push : decode [0b01000101#8, 0b00000011#8] = .ok (.push 3#8, []) := by decide
theorem test_decode_pop : decode [0b01000110#8, 0b00000100#8] = .ok (.pop 4#8, []) := by decide
theorem test_decode_call : decode [0b01010000#8, 0b11111111#8] = .ok (.call 255#8, []) := by decide
theorem test_decode_ldi : decode [0b10000010#8, 0b00000101#8, 0b10101011#8] = .ok (.ldi 5#8 0xAB#8, []) := by decide
theorem test_decode_add : decode [0b10100000#8, 0b00000001#8, 0b00000010#8] = .ok (.add 1#8 2#8, []) := by decide
theorem test_decode_mul : decode [0b10100010#8, 0b00000011#8, 0b00000100#8] = .ok (.mul 3#8 4#8, []) := by decide
theorem test_decode_jmp : decode [0b01010100#8, 0b00000110#8] = .ok (.jmp 6#8, []) := by decide
theorem test_decode_jeq : decode [0b01010101#8, 0b00000111#8] = .ok (.jeq 7#8, []) := by decide
theorem test_decode_jne : decode [0b01010110#8, 0b00000001#8] = .ok (.jne 1#8, []) := by decide
theorem test_decode_cmp : decode [0b10100111#8, 0b00000110#8, 0b00000111#8] = .ok (.cmp 6#8 7#8, []) := by decide

/-- 30_encoding.md R70: 0x00 is no HLT, 0xA1 is no SUB. -/
theorem test_decode_illegal : decode [0x00#8, 0x00#8] = .error (.illegalOpcode 0x00#8) ∧
    decode [0xA1#8, 0x00#8, 0x00#8] = .error (.illegalOpcode 0xA1#8) ∧ decode [] = .error .noOpcode := by decide

theorem test_decode_short : decode [0x47#8] = .error (.missingOperandA 0x47#8) ∧
    decode [0x82#8] = .error (.missingOperandA 0x82#8) ∧ decode [0x82#8, 0x00#8] = .error (.missingOperandB 0x82#8) ∧
    decode [0xA0#8, 0x00#8] = .error (.missingOperandB 0xA0#8) := by decide

/-- The table's numbering: the first byte is bits 7:0, the third bits 23:16. -/
theorem test_decodeTableWord : decodeTableWord 24 0xAB0582 = some (.ldi 5#8 0xAB#8) ∧ decodeTableWord 16 0x0247 = some (.prn 2#8) ∧
    decodeTableWord 8 0x01 = some .hlt ∧ decodeTableWord 8 0x82 = some (.ldi 0#8 0#8) ∧ decodeTableWord 8 0x00 = none := by decide

/-- The first step after reset runs the word placed: LDI R5, 0xAB. -/
theorem test_withFetchWord : got (step (State.reset.withFetchWord 24 0xAB0582)) (fun t => (t.reg 5, t.pc, t.run)) =
    some (0xAB#8, 3#9, .running) := by decide

/-! ## Instructions, one step each -/

/-- L2.Y1. -/
theorem test_hlt : got (step (start [0x01#8])) (fun t => (t.run, t.pc, t.outPort)) = some (.halted, 1#9, none) := by decide

/-- L2.Y6: HLT at 0xFF, under both policies. -/
theorem test_hlt_at_top : got (step (startAt 255 [0x01#8])) (fun t => (t.run, t.pc)) = some (.halted, 256#9) ∧
    got (stepWith { Config.spec with fetchPolicy := .strictThree } (startAt 255 [0x01#8])) record =
      some (.faulted, 1#3, 0x0100#16, 255#9) := by decide

/-- L2.Y3: PRN R7 emits SP. -/
theorem test_prn : got (step (start [0x47#8, 0x07#8])) (fun t => (t.outPort, t.out, t.pc)) =
    some (some 0xF4#8, [0xF4#8], 2#9) := by decide

/-- L2.Y5 and P5c. -/
theorem test_prn_bad_register : got (step (start [0x47#8, 0x08#8])) (fun t => (record t, t.out)) =
    some ((.faulted, 2#3, 0x0008#16, 0#9), []) := by decide

/-- L2.A17. -/
theorem test_ldi_sp : got (step (start [0x82#8, 0x07#8, 0x10#8])) (fun t => (t.reg 7, t.pc)) = some (0x10#8, 3#9) := by decide

/-- L2.A12. -/
theorem test_ldi_bad_register : got (step (start [0x82#8, 0x08#8, 0x01#8])) (fun t => (record t, t.regs)) =
    some ((.faulted, 2#3, 0x0008#16, 0#9), State.reset.regs) := by decide

/-- L2.A2: 200 + 100. -/
theorem test_add : got (exec (.add 0#8 1#8) ((State.reset.setReg 0 200#8).setReg 1 100#8)) (fun t => (t.reg 0, t.reg 1, t.pc, t.e)) =
    some (44#8, 100#8, 3#9, false) := by decide

/-- L2.A14: operand a is checked first. -/
theorem test_add_bad_registers : got (step (start [0xA0#8, 0x08#8, 0x09#8])) record = some (.faulted, 2#3, 0x0008#16, 0#9) := by
  decide

/-- L2.A5: 255 * 255. -/
theorem test_mul : got (exec (.mul 5#8 5#8) (State.reset.setReg 5 255#8)) (fun t => (t.reg 5, t.pc)) = some (1#8, 3#9) := by decide

/-- L1.7: 8 * 9. -/
theorem test_mul_small : got (exec (.mul 0#8 1#8) ((State.reset.setReg 0 8#8).setReg 1 9#8)) (fun t => (t.reg 0, t.reg 1)) =
    some (72#8, 9#8) := by decide

/-- L2.A11: R0 = R7 = 0xF4. -/
theorem test_cmp : got (exec (.cmp 0#8 7#8) (State.reset.setReg 0 0xF4#8)) (fun t => (t.e, t.reg 0, t.pc)) =
    some (true, 0xF4#8, 3#9) := by decide

/-- L2.A10: 3 and 5, from E = 1. -/
theorem test_cmp_clears : got (exec (.cmp 0#8 1#8) { (State.reset.setReg 0 3#8).setReg 1 5#8 with e := true }) (fun t => t.e) =
    some false := by decide

/-- L2.S2: PUSH R7 stores the old SP. -/
theorem test_push_sp : got (step (start [0x45#8, 0x07#8])) (fun t => (t.mem.read 0xF3, t.reg 7, t.pc)) =
    some (0xF4#8, 0xF3#8, 2#9) := by decide

/-- L2.S3: a push at SP = 0. -/
theorem test_push_at_zero : got (exec (.push 0#8) ((startAt 3 [0x45#8, 0x00#8]).setReg 7 0#8)) (fun t => (record t, t.reg 7)) =
    some ((.faulted, 1#3, 0xFFFF#16, 3#9), 0#8) := by decide

/-- L2.S4: the byte popped into R7 wins over the increment. -/
theorem test_pop_sp : got (exec (.pop 7#8) { State.reset with mem := [(0xF4, 0x10#8)] }) (fun t => (t.reg 7, t.pc)) =
    some (0x10#8, 2#9) := by decide

/-- L2.S7: POP R8 leaves SP. -/
theorem test_pop_bad_register : got (exec (.pop 8#8) (State.reset.setReg 7 0xF3#8)) (fun t => (record t, t.reg 7)) =
    some ((.faulted, 2#3, 0x0008#16, 0#9), 0xF3#8) := by decide

/-- L2.C1. -/
theorem test_call : got (exec (.call 3#8) ((startAt 0x12 [0x50#8, 0x03#8]).setReg 3 0x21#8 |>.setReg 7 0xF1#8))
    (fun t => (t.pc, t.reg 7, t.mem.read 0xF0)) = some (0x21#9, 0xF0#8, 0x14#8) := by decide

/-- L2.C2: CALL R7 reads R7 after the push. -/
theorem test_call_sp : got (step (start [0x50#8, 0x07#8])) (fun t => (t.pc, t.reg 7, t.mem.read 0xF3)) =
    some (0xF3#9, 0xF3#8, 0x02#8) := by decide

/-- L2.C1. -/
theorem test_ret : got (exec .ret { State.reset.setReg 7 0xF0#8 with mem := [(0xF0, 0x14#8)], pc := 0x21#9 })
    (fun t => (t.pc, t.reg 7, t.mem.read 0xF0)) = some (0x14#9, 0xF1#8, 0x14#8) := by decide

/-- L2.C13. -/
theorem test_ret_at_top : got (exec .ret ((startAt 3 [0x11#8]).setReg 7 0xFF#8)) (fun t => (record t, t.reg 7)) =
    some ((.faulted, 1#3, 0x0100#16, 3#9), 0xFF#8) := by decide

/-- L2.C10: JMP to itself. -/
theorem test_jmp_self : got (step (start [0x54#8, 0x00#8])) (fun t => (t.pc, t.run)) = some (0#9, .running) := by decide

/-- L2.C4. -/
theorem test_jeq : got (exec (.jeq 2#8) { State.reset.setReg 2 0x10#8 with e := true }) (fun t => (t.pc, t.e)) =
    some (0x10#9, true) := by decide

/-- L2.C6: not taken, register 9 is not read. -/
theorem test_jeq_not_taken : got (step (startAt 3 [0x55#8, 0x09#8])) (fun t => (t.pc, t.run)) = some (5#9, .running) := by decide

/-- L2.C8: taken, register 9 is read. -/
theorem test_jne_bad_register : got (step (start [0x56#8, 0x09#8])) record = some (.faulted, 2#3, 0x0009#16, 0#9) := by decide

/-- L2.C9. -/
theorem test_jne_not_taken : got (exec (.jne 9#8) { startAt 3 [] with e := true }) (fun t => (t.pc, t.e)) = some (5#9, true) := by decide

/-- L2.F7: an illegal byte at 0xFF, under both policies. -/
theorem test_illegal_at_top : got (step (startAt 255 [0xFF#8])) record = some (.faulted, 3#3, 0x00FF#16, 255#9) ∧
    got (stepWith { Config.spec with fetchPolicy := .strictThree } (startAt 255 [0xFF#8])) record =
      some (.faulted, 1#3, 0x0100#16, 255#9) := by decide

/-- L2.F5: LDI at 0xFE lacks its third byte. -/
theorem test_short_fetch : got (step (startAt 254 [0x82#8, 0x00#8])) record = some (.faulted, 1#3, 0x0100#16, 254#9) := by decide

/-- 00_scope.md R19: the output pulse of a step is over in the next one. -/
theorem test_pulse_ends : got (step { start [0x54#8, 0x00#8] with outPort := some 1#8 }) (fun t => t.outPort) = some none := by decide

/-- 70_reset_and_hazards.md R123, R124: `rst` while Running. -/
theorem test_rst : got (step { start [0x47#8, 0x07#8] with e := true, inputs := [{ HostInput.quiet with rst := true }] })
    (fun t => (t.run, t.e, t.mem, t.out)) = some (.idle, false, [], []) := by decide

/-- 00_scope.md R17, R18: the load port and `start` in Idle. -/
theorem test_load_and_start :
    got (step { State.reset with inputs := [{ rst := false, ldWe := true, ldAddr := 0xFF#8, ldData := 0x01#8, start := true }] })
      (fun t => (t.mem.read 255, t.run)) = some (0x01#8, .running) := by decide

/-! ## Witnesses: values that meet the hypotheses of each obligation -/

theorem witness_EncodeInvertsDecode : decode [0xA0#8, 0xFF#8, 0x08#8, 0x01#8] = .ok (.add 0xFF#8 0x08#8, [0x01#8]) := by decide

/-- 0xB0 and 0x00 are no opcode. -/
theorem witness_OpcodeBitsAreConsistent : ∀ i : Instr, i.opcode ≠ 0xB0#8 ∧ i.opcode ≠ 0x00#8 := by
  intro i; cases i <;> simp [Instr.opcode]

theorem witness_BoundsAwareFetch_illegal : 255 < 256 ∧ ∀ i : Instr, i.opcode ≠ (start []).mem.read 255 :=
  ⟨by decide, fun i => (witness_OpcodeBitsAreConsistent i).2⟩

theorem witness_BoundsAwareFetch_fetched :
    bytesFrom (startAt 255 [0x01#8]) 255 Instr.hlt.length = encode .hlt ∧
    bytesFrom (startAt 254 [0x47#8, 0x09#8]) 254 (Instr.prn 9#8).length = encode (.prn 9#8) ∧
    bytesFrom (startAt 253 [0x82#8, 0x01#8, 0x02#8]) 253 (Instr.ldi 1#8 2#8).length = encode (.ldi 1#8 2#8) := by decide

theorem witness_BoundsAwareFetch_short :
    (254 < 256 ∧ (Instr.ldi 0#8 0#8).opcode = (startAt 254 [0x82#8]).mem.read 254 ∧ 256 < 254 + (Instr.ldi 0#8 0#8).length) ∧
    (255 < 256 ∧ (Instr.prn 0#8).opcode = (startAt 255 [0x47#8]).mem.read 255 ∧ 256 < 255 + (Instr.prn 0#8).length) := by decide

/-- Both sides of the boundary between the clauses, with the values they give. -/
theorem witness_StrictThreeFetch : fetchAt .strictThree 253 (startAt 253 [0x01#8]) = .ok .hlt ∧
    fetchAt .strictThree 254 (startAt 254 [0x01#8]) = .error (.outOfBounds 256) ∧
    fetchAt .strictThree 255 (startAt 255 [0x01#8]) = .error (.outOfBounds 256) ∧
    fetchAt .strictThree 256 (start []) = .error (.outOfBounds 256) := by decide

theorem witness_FetchReadsOwnBytesOnly : fetchAt .boundsAware 254 (startAt 254 [0x47#8, 0x02#8]) = .ok (.prn 2#8) ∧
    ∀ k, k < (Instr.prn 2#8).length →
      Memory.read [(0, 9#8), (254, 0x47#8), (255, 0x02#8)] (254 + k) = (startAt 254 [0x47#8, 0x02#8]).mem.read (254 + k) := by
  decide

theorem executing_start (image : List Byte) : Executing (start image) := ⟨rfl, rfl⟩
theorem executing_startAt (p : Nat) (image : List Byte) : Executing (startAt p image) := ⟨rfl, rfl⟩

theorem witness_StepRunsDecodedInstruction :
    (Executing (startAt 255 [0x01#8]) ∧ decode (bytesFrom (startAt 255 [0x01#8]) 255 3) = .ok (.hlt, [])) ∧
    (Executing (start [0x47#8, 0x08#8]) ∧ decode (bytesFrom (start [0x47#8, 0x08#8]) 0 3) = .ok (.prn 8#8, [0x00#8])) :=
  ⟨⟨executing_startAt _ _, by decide⟩, executing_start _, by decide⟩

theorem witness_IllegalOpcodeFaults : Executing (startAt 255 []) ∧ (startAt 255 []).pc.toNat < 256 ∧
    (startAt 255 []).mem.read (startAt 255 []).pc.toNat ∉
      [0x01#8, 0x11#8, 0x47#8, 0x45#8, 0x46#8, 0x50#8, 0x82#8, 0xA0#8, 0xA2#8, 0x54#8, 0x55#8, 0x56#8, 0xA7#8] :=
  ⟨executing_startAt _ _, by decide, by decide⟩

/-- The two clauses of PRN, LDI and JMP meet at 7 and 8, in any state. -/
theorem witness_register_clauses : (7#8 : Byte).toNat < 8 ∧ 8 ≤ (8#8 : Byte).toNat := by decide

theorem witness_PrnEmitsRegister : got (exec (.prn 7#8) State.reset) (fun t => t.out) = some [0xF4#8] ∧
    got (exec (.prn 8#8) State.reset) (fun t => t.run) = some .faulted := by decide
theorem witness_LdiLoadsImmediate : got (exec (.ldi 7#8 1#8) State.reset) (fun t => t.reg 7) = some 1#8 ∧
    got (exec (.ldi 8#8 1#8) State.reset) (fun t => t.run) = some .faulted := by decide
theorem witness_JmpLoadsProgramCounter : got (exec (.jmp 7#8) State.reset) (fun t => t.pc) = some 0xF4#9 ∧
    got (exec (.jmp 8#8) State.reset) (fun t => t.run) = some .faulted := by decide

/-- The three clauses of ADD, MUL and CMP: both operands at 7, a at 8, only b at 8. -/
theorem witness_two_register_clauses : ((7#8 : Byte).toNat < 8 ∧ (7#8 : Byte).toNat < 8) ∧ 8 ≤ (8#8 : Byte).toNat ∧
    ((7#8 : Byte).toNat < 8 ∧ 8 ≤ (8#8 : Byte).toNat) := by decide

theorem witness_AddWritesSumModulo256 : got (exec (.add 7#8 7#8) State.reset) (fun t => t.reg 7) = some 0xE8#8 ∧
    got (exec (.add 8#8 7#8) State.reset) (fun t => t.run) = some .faulted ∧
    got (exec (.add 7#8 8#8) State.reset) (fun t => t.run) = some .faulted := by decide
theorem witness_MulWritesProductModulo256 : got (exec (.mul 7#8 7#8) State.reset) (fun t => t.reg 7) = some 0x90#8 ∧
    got (exec (.mul 8#8 7#8) State.reset) (fun t => t.run) = some .faulted ∧
    got (exec (.mul 7#8 8#8) State.reset) (fun t => t.run) = some .faulted := by decide
theorem witness_CmpSetsEqualFlag : got (exec (.cmp 7#8 7#8) State.reset) (fun t => t.e) = some true ∧
    got (exec (.cmp 8#8 7#8) State.reset) (fun t => t.run) = some .faulted ∧
    got (exec (.cmp 7#8 8#8) State.reset) (fun t => t.run) = some .faulted := by decide

/-- A core with SP = v. -/
def spAt (v : Byte) : State := State.reset.setReg 7 v

theorem witness_PushStoresBelowStackPointer : ((7#8 : Byte).toNat < 8 ∧ (spAt 1#8).reg 7 ≠ 0x00#8) ∧ 8 ≤ (8#8 : Byte).toNat ∧
    ((7#8 : Byte).toNat < 8 ∧ (spAt 0#8).reg 7 = 0x00#8) := by decide
theorem witness_PopLoadsFromStackPointer : ((7#8 : Byte).toNat < 8 ∧ (spAt 0xFE#8).reg 7 ≠ 0xFF#8) ∧ (spAt 0xFF#8).reg 7 = 0xFF#8 ∧
    ((spAt 0xFE#8).reg 7 ≠ 0xFF#8 ∧ 8 ≤ (8#8 : Byte).toNat) := by decide
theorem witness_CallPushesReturnAddress :
    ((7#8 : Byte).toNat < 8 ∧ ({ spAt 1#8 with pc := 253#9 } : State).pc.toNat + 2 ≤ 255 ∧ (spAt 1#8).reg 7 ≠ 0x00#8) ∧
    255 < ({ spAt 1#8 with pc := 254#9 } : State).pc.toNat + 2 ∧
    (({ spAt 0#8 with pc := 253#9 } : State).pc.toNat + 2 ≤ 255 ∧ (spAt 0#8).reg 7 = 0x00#8) ∧
    (({ spAt 1#8 with pc := 253#9 } : State).pc.toNat + 2 ≤ 255 ∧ (spAt 1#8).reg 7 ≠ 0x00#8 ∧ 8 ≤ (8#8 : Byte).toNat) := by decide
theorem witness_RetPopsProgramCounter : (spAt 0xFE#8).reg 7 ≠ 0xFF#8 ∧ (spAt 0xFF#8).reg 7 = 0xFF#8 := by decide
theorem witness_JeqJumpsIfEqual : ((7#8 : Byte).toNat < 8 ∧ ({ State.reset with e := true } : State).e = true) ∧
    State.reset.e = false ∧ (({ State.reset with e := true } : State).e = true ∧ 8 ≤ (8#8 : Byte).toNat) := by decide
theorem witness_JneJumpsIfNotEqual : ((7#8 : Byte).toNat < 8 ∧ State.reset.e = false) ∧
    ({ State.reset with e := true } : State).e = true ∧ (State.reset.e = false ∧ 8 ≤ (8#8 : Byte).toNat) := by decide

/-- The instruction form on both sides of a frame: it completes, and it faults. -/
theorem witness_RegisterDestinationFrame :
    (∃ t, exec (.ldi 7#8 1#8) State.reset = .next t ∧ t.run = .idle) ∧ (∃ t, exec (.add 0#8 1#8) State.reset = .next t ∧ t.run = .idle) ∧
    (∃ t, exec (.mul 8#8 1#8) State.reset = .next t ∧ t.run = .faulted) := ⟨⟨_, rfl, rfl⟩, ⟨_, rfl, rfl⟩, _, rfl, rfl⟩
theorem witness_NoDestinationFrame :
    (∃ t, exec .hlt State.reset = .next t ∧ t.run = .halted) ∧ (∃ t, exec (.prn 7#8) State.reset = .next t ∧ t.out = [0xF4#8]) ∧
    (∃ t, exec (.cmp 0#8 1#8) State.reset = .next t ∧ t.e = true) ∧ (∃ t, exec (.jmp 8#8) State.reset = .next t ∧ t.run = .faulted) ∧
    (∃ t, exec (.jeq 0#8) State.reset = .next t ∧ t.pc = 2#9) ∧ (∃ t, exec (.jne 7#8) State.reset = .next t ∧ t.pc = 0xF4#9) :=
  ⟨⟨_, rfl, rfl⟩, ⟨_, rfl, rfl⟩, ⟨_, rfl, rfl⟩, ⟨_, rfl, rfl⟩, ⟨_, rfl, rfl⟩, _, rfl, rfl⟩
theorem witness_StoringFrame :
    (∃ t, exec (.push 7#8) (spAt 1#8) = .next t ∧ pushAddress (spAt 1#8) = ((0 : Nat) : Int) ∧ t.mem.read 0 = 0x01#8) ∧
    (∃ t, exec (.call 0#8) (spAt 0#8) = .next t ∧ pushAddress (spAt 0#8) < 0 ∧ t.run = .faulted) :=
  ⟨⟨_, rfl, rfl, rfl⟩, _, rfl, by decide, rfl⟩
theorem witness_PoppingFrame : (∃ t, exec (.pop 0#8) (spAt 0xFE#8) = .next t ∧ t.reg 7 = 0xFF#8) ∧
    (∃ t, exec .ret (spAt 0xFF#8) = .next t ∧ t.run = .faulted) := ⟨⟨_, rfl, rfl⟩, _, rfl, rfl⟩

theorem witness_RegisterReadAfterWrite : (7#8 : Byte).toNat < 8 ∧ (0#8 : Byte) ≠ 7#8 ∧ 8 ≤ (8#8 : Byte).toNat := by decide
theorem witness_MemoryReadAfterWrite : (start [0x01#8]).mem.wf = true ∧ ((0 : Int) ≤ 255 ∧ (255 : Int) ≤ 255) ∧
    ((0 : Int) ≤ 0 ∧ (0 : Int) ≤ 255) ∧ ((-1 : Int) < 0 ∨ 255 < (-1 : Int)) ∧ ((256 : Int) < 0 ∨ 255 < (256 : Int)) := by decide
theorem witness_PushDecrementsThenWrites : ((spAt 0#8).mem.wf = true ∧ (spAt 0#8).reg 7 = 0x00#8) ∧
    ((spAt 1#8).mem.wf = true ∧ (spAt 1#8).reg 7 ≠ 0x00#8) := by decide
theorem witness_PopReadsThenIncrements : (spAt 0xFF#8).reg 7 = 0xFF#8 ∧ (spAt 0xFE#8).reg 7 ≠ 0xFF#8 := by decide
theorem witness_StackRoundTrip : (spAt 3#8).mem.wf = true ∧
    ∃ t, pushAll [1#8, 2#8, 3#8] (spAt 3#8) = .ok t ∧ t.reg 7 = 0#8 ∧ t.mem = [(0, 3#8), (1, 2#8), (2, 1#8)] :=
  ⟨by decide, _, rfl, by decide, by decide⟩

/-- L2.C1: CALL at 0x12, RET at 0x21. -/
theorem witness_CallThenRetResumes : ∃ (h : (3#8 : Byte).toNat < 8) (s t : State),
    s.mem.wf = true ∧ s.run = .running ∧ exec (.call 3#8) s = .next t ∧ t.run = .running ∧
    s.reg ⟨(3#8 : Byte).toNat, h⟩ = 0x21#8 ∧ s.pc = 0x12#9 ∧ t.reg 7 = 0xF0#8 ∧ t.mem.read (t.reg 7).toNat = 0x14#8 :=
  ⟨by decide, ((startAt 0x12 [0x50#8, 0x03#8]).setReg 3 0x21#8).setReg 7 0xF1#8, _, by decide, rfl, rfl, rfl, by decide,
    by decide, by decide, by decide⟩

theorem witness_FaultsArePrecise : Executing (start [0x46#8, 0x08#8]) ∧
    ∃ t, stepWith Config.spec (start [0x46#8, 0x08#8]) = .next t ∧ t.run = .faulted := ⟨executing_start _, _, rfl, rfl⟩
theorem witness_FaultsByInstruction :
    (∃ t, exec (.push 0#8) { spAt 0#8 with run := .running } = .next t ∧ t.run = .faulted ∧ t.faultInfo = 0xFFFF#16) ∧
    (∃ t, exec (.call 0#8) (startAt 254 []) = .next t ∧ t.run = .faulted ∧ t.faultInfo = 0x0100#16) ∧
    (∃ t, exec (.jne 8#8) (start []) = .next t ∧ t.run = .faulted ∧ t.faultCode = 2#3) :=
  ⟨⟨_, rfl, rfl, rfl⟩, ⟨_, rfl, rfl, by decide⟩, _, rfl, rfl, rfl⟩
theorem witness_UnsupportedOperationUnreachable : ((3#2 : BitVec 2) ≠ 0#2 ∧ (3#2 : BitVec 2) ≠ 1#2 ∧ (3#2 : BitVec 2) ≠ 2#2) ∧
    Executing (start []) ∧ ∃ t, stepWith Config.spec (start []) = .next t ∧ t.run = .faulted :=
  ⟨by decide, executing_start _, _, rfl, rfl⟩
theorem witness_OutOfBoundsAddresses : (startAt 256 []).pc.toNat ≤ 256 ∧ Executing (startAt 256 []) ∧
    ∃ t, stepWith Config.spec (startAt 256 []) = .next t ∧ t.run = .faulted ∧ t.faultCode = 1#3 :=
  ⟨by decide, executing_startAt _ _, _, rfl, rfl, rfl⟩
theorem witness_WellFormedNeverInvalidRegister : (Instr.pop 7#8).wellFormed = true ∧
    ∃ t, exec (.pop 7#8) { spAt 0xFF#8 with run := .running } = .next t ∧ t.run = .faulted := ⟨by decide, _, rfl, rfl⟩

/-- The program counter's clauses: a fault, and each instruction that completes. -/
theorem witness_ProgramCounterUpdates : (start []).run = .running ∧
    (∃ t, exec (.prn 8#8) (start []) = .next t ∧ t.run = .faulted) ∧ (∃ t, exec .hlt (start []) = .next t ∧ t.run ≠ .faulted) ∧
    (∃ t, exec .ret (start []) = .next t ∧ t.run ≠ .faulted) ∧ (∃ t, exec (.push 7#8) (start []) = .next t ∧ t.run ≠ .faulted) ∧
    (∃ t, exec (.call 7#8) (start []) = .next t ∧ t.run ≠ .faulted) ∧ (∃ t, exec (.jmp 7#8) (start []) = .next t ∧ t.run ≠ .faulted) ∧
    (∃ t, exec (.jeq 7#8) { start [] with e := true } = .next t ∧ t.run ≠ .faulted) ∧
    (∃ t, exec (.jeq 9#8) (start []) = .next t ∧ t.run ≠ .faulted) ∧ (∃ t, exec (.jne 7#8) (start []) = .next t ∧ t.run ≠ .faulted) ∧
    (∃ t, exec (.jne 9#8) { start [] with e := true } = .next t ∧ t.run ≠ .faulted) ∧
    (∃ t, exec (.cmp 7#8 0#8) (start []) = .next t ∧ t.run ≠ .faulted) :=
  ⟨rfl, ⟨_, rfl, rfl⟩, ⟨_, rfl, by decide⟩, ⟨_, rfl, by decide⟩, ⟨_, rfl, by decide⟩, ⟨_, rfl, by decide⟩, ⟨_, rfl, by decide⟩,
    ⟨_, rfl, by decide⟩, ⟨_, rfl, by decide⟩, ⟨_, rfl, by decide⟩, ⟨_, rfl, by decide⟩, _, rfl, by decide⟩

theorem witness_AdvanceNeverWraps : Executing (startAt 253 [0x82#8, 0x00#8, 0x05#8]) ∧
    fetch .boundsAware (startAt 253 [0x82#8, 0x00#8, 0x05#8]) = .ok (.ldi 0#8 5#8) ∧
    ∃ t, stepWith Config.spec (startAt 253 [0x82#8, 0x00#8, 0x05#8]) = .next t ∧ t.run ≠ .faulted :=
  ⟨executing_startAt _ _, by decide, _, rfl, by decide⟩
theorem witness_EqualFlagDiscipline :
    ((start [0xA7#8]).input.rst = false ∧ ∃ t, stepWith Config.spec (start [0xA7#8]) = .next t ∧ t.e ≠ (start [0xA7#8]).e) ∧
    ((∀ a, Instr.hlt ≠ .jeq a ∧ Instr.hlt ≠ .jne a) ∧ ∃ t, exec .hlt (start []) = .next t) :=
  ⟨⟨rfl, _, rfl, by decide⟩, fun _ => ⟨nofun, nofun⟩, _, rfl⟩

/-- A host that asserts `rst`. -/
def resetting : List HostInput := [{ HostInput.quiet with rst := true }]

theorem witness_RunStateTransitions :
    (∃ t, stepWith Config.spec { start [] with inputs := resetting } = .next t ∧ t.run = .idle) ∧
    (∃ t, stepWith Config.spec { State.reset with inputs := [{ HostInput.quiet with start := true }] } = .next t ∧ t.run = .running) ∧
    (∃ t, stepWith Config.spec State.reset = .next t ∧ t.run = .idle) ∧
    (∃ t, stepWith Config.spec (start [0x54#8]) = .next t ∧ t.run = .running) ∧
    (∃ t, stepWith Config.spec (start [0x01#8]) = .next t ∧ t.run = .halted) ∧
    (∃ t, stepWith Config.spec (start []) = .next t ∧ t.run = .faulted) ∧
    (∃ t, stepWith Config.spec { start [] with run := .halted } = .next t ∧ t.run = .halted) :=
  ⟨⟨_, rfl, rfl⟩, ⟨_, rfl, rfl⟩, ⟨_, rfl, rfl⟩, ⟨_, rfl, rfl⟩, ⟨_, rfl, rfl⟩, ⟨_, rfl, rfl⟩, _, rfl, rfl⟩
theorem witness_FaultRecordDiscipline : (start []).input.rst = false ∧
    (∃ t, stepWith Config.spec (start []) = .next t ∧ t.faultCode ≠ (start []).faultCode) ∧
    (∃ t, exec (.prn 9#8) (start []) = .next t ∧ t.faultCode = 2#3) := ⟨rfl, ⟨_, rfl, by decide⟩, _, rfl, rfl⟩
theorem witness_MemoryWriters :
    ((start [0x45#8, 0x07#8]).input.rst = false ∧
      ∃ t, stepWith Config.spec (start [0x45#8, 0x07#8]) = .next t ∧ t.mem.read 0xF3 ≠ (start [0x45#8, 0x07#8]).mem.read 0xF3) ∧
    (∃ t, stepWith Config.spec { State.reset with inputs := [{ HostInput.quiet with ldWe := true, ldAddr := 255#8, ldData := 1#8 }] } =
      .next t ∧ t.mem.read 255 ≠ State.reset.mem.read 255) := ⟨⟨rfl, _, rfl, by decide⟩, _, rfl, by decide⟩
theorem witness_OutputOnlyByPrn : (start [0x47#8, 0x07#8]).input.rst = false ∧
    ∃ t, stepWith Config.spec (start [0x47#8, 0x07#8]) = .next t ∧ t.outPort = some 0xF4#8 := ⟨rfl, _, rfl, by decide⟩
theorem witness_VisibleStateDecides : ∃ s s' t : State, s'.regs = s.regs ∧ s'.pc = s.pc ∧ s'.e = s.e ∧ s'.mem = s.mem ∧ s'.run = s.run ∧
    s'.faultCode ≠ s.faultCode ∧ exec (.prn 7#8) s = .next t :=
  ⟨start [], { start [] with faultCode := 4#3, out := [1#8], inputs := resetting }, _, rfl, rfl, rfl, rfl, rfl, by decide, rfl⟩
theorem witness_TerminalStatesKeepState :
    (({ start [] with run := .halted } : State).input.rst = false ∧ Succeeded { start [] with run := .halted }) ∧
    (({ start [] with run := .faulted } : State).input.rst = false ∧ Failed { start [] with run := .faulted }) :=
  ⟨⟨rfl, rfl⟩, rfl, rfl⟩
theorem witness_ResetValues : ({ start [0x01#8] with inputs := resetting } : State).input.rst = true := by decide
theorem witness_LoadAndStartPorts : HostInput.quiet.rst = false ∧ State.reset.run = .idle ∧ (start []).run ≠ .idle := by decide
theorem witness_BootReachesLaunchState : (List.replicate 256 0x01#8 : List Byte).length ≤ 256 ∧
    ([0x01#8] : List Byte).length ≤ 256 := ⟨le_of_eq List.length_replicate, by decide⟩
theorem witness_StepKeepsInvariant : Inv (start [0x45#8, 0x07#8]) ∧
    ∃ t, stepWith Config.spec (start [0x45#8, 0x07#8]) = .next t ∧ t.mem.read 0xF3 = 0xF4#8 :=
  ⟨⟨by decide, by decide, by decide, by decide, by decide, fun _ => ⟨rfl, rfl⟩⟩, _, rfl, by decide⟩
/-- The clauses of the flat store: an opcode written at 255, an operand byte at 254, an illegal byte, and a pop at 254. -/
theorem witness_MemoryIsOneFlatStore :
    (∃ t, memWrite (255#8 : Byte).toNat 0x01#8 (spAt 0xFE#8) = .ok t ∧ bytesFrom t (255 + 1) (Instr.hlt.length - 1) = Instr.hlt.operandBytes) ∧
    (∃ t, memWrite (254#8 : Byte).toNat 0x00#8 (spAt 0xFE#8) = .ok t ∧ (spAt 0xFE#8).mem.wf = true ∧ 253 + 1 = (254#8 : Byte).toNat ∧
      t.reg 7 = 254#8 ∧ (254#8 : Byte) ≠ 0xFF#8) ∧ ∀ i : Instr, i.opcode ≠ 0x00#8 :=
  ⟨⟨_, rfl, by decide⟩, ⟨_, rfl, by decide, by decide, by decide, by decide⟩, fun i => (witness_OpcodeBitsAreConsistent i).2⟩
/-- R129, N23: byte 256 of an image is not loaded over address 0. -/
theorem test_loadScript_ends : (loadScript 255 [1#8, 2#8]).map (·.ldAddr) = [255#8] ∧ loadScript 256 [2#8] = [] := by decide
theorem witness_DatapathAgreesWithRules : (start []).run = .running := rfl
theorem witness_PhasesRefineStep : fetch .boundsAware (start [0x82#8]) = .ok (.ldi 0#8 0#8) := by decide

end Sys2Proof.Tests
end

section
/-!
PROOFS about the ports of 00_scope.md R17 to R19: the equation of a step in each run state, what a step shows on the output
port, and how the load and start ports act.
-/

namespace Sys2Proof.Machine

/-! ## The step in each run state, without rst (10_state.md R32) -/

theorem stepWith_of_idle (c : Config) {s : State} (hrst : s.input.rst = false) (hs : s.run = .idle) :
    stepWith c s = .next (idleStep s.input s.beginStep) := by
  simp [stepWith, cycle, hrst, hs]

theorem stepWith_of_running (c : Config) {s : State} (hrst : s.input.rst = false) (hs : s.run = .running) :
    stepWith c s = runInstruction c.fetchPolicy s.beginStep := by
  simp [stepWith, cycle, hrst, hs]

theorem stepWith_of_halted_or_faulted (c : Config) {s : State} (hrst : s.input.rst = false)
    (hs : s.run = .halted ∨ s.run = .faulted) : stepWith c s = .next s.beginStep := by
  rcases hs with hs | hs <;> simp [stepWith, cycle, hrst, hs]

/-! ## The load and start ports (00_scope.md R17, R18) -/

theorem idleStep_eq (h : HostInput) (s : State) :
    idleStep h s =
      { s with
        mem := if h.ldWe then s.mem.write h.ldAddr.toNat h.ldData else s.mem
        run := if h.start then .running else s.run } := by
  cases hw : h.ldWe <;> cases hg : h.start <;> simp [idleStep, startPort, loadPort, hw, hg, State.setMem, State.setRun]

/-- Out of Idle the host's input is seen through rst alone: two states that begin the step alike take the same step. -/
theorem stepWith_congr_of_ne_idle (c : Config) {s s' : State} (hs : s.run ≠ .idle) (hrst : s.input.rst = false)
    (hrst' : s'.input.rst = false) (hbegin : s.beginStep = s'.beginStep) : stepWith c s = stepWith c s' := by
  have hrun : s'.run = s.run := by simpa using (congrArg State.run hbegin).symm
  cases hr : s.run with
  | idle => exact absurd hr hs
  | running =>
    rw [stepWith_of_running c hrst hr, stepWith_of_running c hrst' (hrun.trans hr), hbegin]
  | halted | faulted =>
    rw [stepWith_of_halted_or_faulted c hrst (by simp [hr]),
      stepWith_of_halted_or_faulted c hrst' (by simp [hrun, hr]), hbegin]

/-- Settles O51: the idle step is the load port and then the start port, and any other step sees rst alone. -/
theorem loadAndStartPorts : Obligations.LoadAndStartPorts := by
  intro c s h later hrst
  constructor
  · intro hs
    rw [stepWith_of_idle c (s := { s with inputs := h :: later }) hrst hs, idleStep_eq]
    simp [State.input, State.beginStep, hs]
  · intro hs
    exact stepWith_congr_of_ne_idle c hs hrst hrst rfl

/-! ## The output port (00_scope.md R19, 40_system.md R88) -/

/-- The value an instruction emits: the register's content for a PRN that completes, none otherwise. -/
def emittedBy (i : Instr) (s : State) : Option Byte :=
  match i with
  | .prn a => if h : a.toNat < 8 then some (s.reg ⟨a.toNat, h⟩) else none
  | _ => none

theorem emittedBy_eq_some_iff {i : Instr} {s : State} {v : Byte} :
    emittedBy i s = some v ↔ ∃ (a : Byte) (h : a.toNat < 8), i = .prn a ∧ v = s.reg ⟨a.toNat, h⟩ := by
  cases i <;> simp [emittedBy, eq_comm]

@[simp] theorem emittedBy_beginStep (i : Instr) (s : State) : emittedBy i s.beginStep = emittedBy i s := rfl

theorem emittedBy_of_raises {i : Instr} {s : State} {f : FaultCause} (hr : Raises i s f) : emittedBy i s = none := by
  cases i with
  | prn a => exact dif_neg (Nat.not_lt.mpr hr.1)
  | _ => rfl

theorem output_of_completed {i : Instr} {s t : State} (hport : s.outPort = none) (hc : Completed i s t) :
    t.outPort = emittedBy i s ∧ t.out = s.out ++ (emittedBy i s).toList := by
  cases i with
  | prn a =>
    obtain ⟨ha, rfl⟩ := hc
    simp [emittedBy, ha]
  | hlt =>
    subst hc
    simp [emittedBy, hport]
  | ret =>
    obtain ⟨-, rfl⟩ := hc
    simp [emittedBy, hport]
  | push a | pop a =>
    obtain ⟨_, -, rfl⟩ := hc
    simp [emittedBy, hport]
  | call a =>
    obtain ⟨_, -, -, rfl⟩ := hc
    simp [emittedBy, hport]
  | ldi a b | jmp a =>
    obtain ⟨_, rfl⟩ := hc
    simp [emittedBy, hport]
  | add a b | mul a b | cmp a b =>
    obtain ⟨_, _, rfl⟩ := hc
    simp [emittedBy, hport]
  | jeq a | jne a =>
    obtain ⟨-, rfl⟩ | ⟨-, _, rfl⟩ := hc <;> simp [emittedBy, hport]

theorem exec_output {i : Instr} {s t : State} (hport : s.outPort = none) (h : exec i s = .next t) :
    t.outPort = emittedBy i s ∧ t.out = s.out ++ (emittedBy i s).toList := by
  rcases exec_cases h with hc | ⟨f, hr, rfl⟩
  · exact output_of_completed hport hc
  · simp [emittedBy_of_raises hr, hport]

/-- The value a step without rst emits: that of the instruction a Running core fetches. -/
def emittedInStep (pol : FetchPolicy) (s : State) : Option Byte :=
  if s.run = .running then (fetch pol s).toOption.bind (emittedBy · s) else none

theorem emittedInStep_of_ok {pol : FetchPolicy} {s : State} {i : Instr} (hs : s.run = .running)
    (hf : fetch pol s = .ok i) : emittedInStep pol s = emittedBy i s := by
  simp [emittedInStep, hs, hf, Except.toOption]

theorem emittedInStep_of_error {pol : FetchPolicy} {s : State} {f : FaultCause} (hf : fetch pol s = .error f) :
    emittedInStep pol s = none := by
  simp [emittedInStep, hf, Except.toOption]

theorem emittedInStep_of_ne_running {pol : FetchPolicy} {s : State} (hs : s.run ≠ .running) :
    emittedInStep pol s = none := if_neg hs

theorem emittedInStep_eq_some_iff {pol : FetchPolicy} {s : State} {v : Byte} :
    emittedInStep pol s = some v ↔
      s.run = .running ∧ ∃ (a : Byte) (h : a.toNat < 8), fetch pol s = .ok (.prn a) ∧ v = s.reg ⟨a.toNat, h⟩ := by
  by_cases hs : s.run = .running
  · cases hf : fetch pol s with
    | error f => simp [emittedInStep_of_error hf]
    | ok i => simp [emittedInStep_of_ok hs hf, emittedBy_eq_some_iff, hs]
  · simp [emittedInStep_of_ne_running hs, hs]

theorem stepWith_output {c : Config} {s t : State} (hrst : s.input.rst = false) (h : stepWith c s = .next t) :
    t.outPort = emittedInStep c.fetchPolicy s ∧ t.out = s.out ++ (emittedInStep c.fetchPolicy s).toList := by
  obtain ⟨hr, -⟩ | ⟨-, hs, rfl⟩ | ⟨-, hs, ⟨f, hf, rfl⟩ | ⟨i, hf, hi⟩⟩ | ⟨-, hs, rfl⟩ := stepWith_cases h
  · simp [hrst] at hr
  · have hne : s.run ≠ .running := by simp [hs]
    simp [emittedInStep_of_ne_running hne, idleStep_eq]
  · rw [fetch_beginStep] at hf
    simp [emittedInStep_of_error hf]
  · rw [fetch_beginStep] at hf
    rw [emittedInStep_of_ok hs hf]
    simpa using exec_output (beginStep_outPort s) hi
  · have hne : s.run ≠ .running := by rcases hs with hs | hs <;> simp [hs]
    simp [emittedInStep_of_ne_running hne]

/-- Settles O46: the port and the trace are those of `emittedInStep`, read off from what a Running core fetches. -/
theorem outputOnlyByPrn : Obligations.OutputOnlyByPrn := by
  intro c s t hrst h
  obtain ⟨hport, hout⟩ := stepWith_output hrst h
  rw [hport, hout]
  exact ⟨rfl, fun _ => emittedInStep_eq_some_iff⟩

end Sys2Proof.Machine
end

section
/-!
PROOFS. What an instruction that completes may write, field by field, and that it ends in one way only: its completed effect or
its raised fault determines what `exec` answers.
-/

namespace Sys2Proof.Machine

variable {i : Instr} {s t u : State}

/-! ## What a completed instruction writes -/

/-- What a completed instruction may write outside the registers and the output: HLT alone writes the run state
(10_state.md R32), nothing the fault record (R33), CMP alone E (R30), a push alone memory, one below SP (20_memory.md R38);
the new pc is past the instruction or a byte (10_state.md R28). -/
structure CompletedFrame (i : Instr) (s t : State) : Prop where
  faultCode : t.faultCode = s.faultCode
  faultInfo : t.faultInfo = s.faultInfo
  faultPc : t.faultPc = s.faultPc
  run : t.run = if i = .hlt then .halted else s.run
  e : t.e = s.e ∨ ∃ (a b : Byte) (ha : a.toNat < 8) (hb : b.toNat < 8),
    i = .cmp a b ∧ t.e = decide (s.reg ⟨a.toNat, ha⟩ = s.reg ⟨b.toNat, hb⟩)
  mem : t.mem = s.mem ∨ ∃ v : Byte, t.mem = s.mem.write (s.sp.toNat - 1) v
  pc : t.pc = (s.advance i.length).pc ∨ ∃ v : Byte, t.pc = byteToPc v

theorem completed_frame (h : Completed i s t) : CompletedFrame i s t := by
  cases i with
  | hlt =>
    subst h
    exact ⟨rfl, rfl, rfl, rfl, .inl rfl, .inl rfl, .inl rfl⟩
  | ret =>
    obtain ⟨-, rfl⟩ := h
    exact ⟨rfl, rfl, rfl, rfl, .inl rfl, .inl rfl, .inr ⟨_, rfl⟩⟩
  | prn a | ldi a b =>
    obtain ⟨_, rfl⟩ := h
    exact ⟨rfl, rfl, rfl, rfl, .inl rfl, .inl rfl, .inl rfl⟩
  | push a =>
    obtain ⟨_, -, rfl⟩ := h
    exact ⟨rfl, rfl, rfl, rfl, .inl rfl, .inr ⟨_, rfl⟩, .inl rfl⟩
  | pop a =>
    obtain ⟨_, -, rfl⟩ := h
    exact ⟨rfl, rfl, rfl, rfl, .inl rfl, .inl rfl, .inl rfl⟩
  | call a =>
    obtain ⟨_, -, -, rfl⟩ := h
    exact ⟨rfl, rfl, rfl, rfl, .inl rfl, .inr ⟨_, rfl⟩, .inr ⟨_, rfl⟩⟩
  | add a b | mul a b =>
    obtain ⟨_, _, rfl⟩ := h
    exact ⟨rfl, rfl, rfl, rfl, .inl rfl, .inl rfl, .inl rfl⟩
  | cmp a b =>
    obtain ⟨ha, hb, rfl⟩ := h
    exact ⟨rfl, rfl, rfl, rfl, .inr ⟨a, b, ha, hb, rfl, rfl⟩, .inl rfl, .inl rfl⟩
  | jmp a =>
    obtain ⟨_, rfl⟩ := h
    exact ⟨rfl, rfl, rfl, rfl, .inl rfl, .inl rfl, .inr ⟨_, rfl⟩⟩
  | jeq a | jne a =>
    obtain ⟨-, rfl⟩ | ⟨-, _, rfl⟩ := h
    · exact ⟨rfl, rfl, rfl, rfl, .inl rfl, .inl rfl, .inl rfl⟩
    · exact ⟨rfl, rfl, rfl, rfl, .inl rfl, .inl rfl, .inr ⟨_, rfl⟩⟩

theorem completed_run_ne_faulted (h : Completed i s t) (hs : s.run ≠ .faulted) : t.run ≠ .faulted := by
  rw [(completed_frame h).run]
  split
  · decide
  · exact hs

/-! ## An instruction ends in one way only -/

theorem completed_unique (ht : Completed i s t) (hu : Completed i s u) : t = u := by
  cases i with
  | hlt => exact ht.trans hu.symm
  | ret =>
    obtain ⟨-, rfl⟩ := ht
    exact hu.2.symm
  | prn a | ldi a b | jmp a =>
    obtain ⟨_, rfl⟩ := ht
    obtain ⟨_, rfl⟩ := hu
    rfl
  | push a | pop a =>
    obtain ⟨_, -, rfl⟩ := ht
    obtain ⟨_, -, rfl⟩ := hu
    rfl
  | call a =>
    obtain ⟨_, -, -, rfl⟩ := ht
    obtain ⟨_, -, -, rfl⟩ := hu
    rfl
  | add a b | mul a b | cmp a b =>
    obtain ⟨_, _, rfl⟩ := ht
    obtain ⟨_, _, rfl⟩ := hu
    rfl
  | jeq a | jne a =>
    obtain ⟨he, rfl⟩ | ⟨he, _, rfl⟩ := ht <;> obtain ⟨he', rfl⟩ | ⟨he', _, rfl⟩ := hu
    · rfl
    · simp [he] at he'
    · simp [he] at he'
    · rfl

theorem not_raises_of_completed {c : FaultCause} (h : Completed i s t) : ¬ Raises i s c := by
  intro hr
  cases i with
  | hlt => exact hr
  | ret => exact h.1 hr.1
  | prn a | ldi a b | jmp a =>
    obtain ⟨ha, -⟩ := h
    exact Nat.not_le.mpr ha hr.1
  | push a =>
    obtain ⟨ha, hsp, -⟩ := h
    obtain ⟨hge, -⟩ | ⟨-, h0, -⟩ := hr
    · omega
    · exact hsp h0
  | pop a =>
    obtain ⟨ha, hsp, -⟩ := h
    obtain ⟨htop, -⟩ | ⟨-, hge, -⟩ := hr
    · exact hsp htop
    · omega
  | call a =>
    obtain ⟨ha, hfits, hsp, -⟩ := h
    obtain ⟨hbig, -⟩ | ⟨-, h0, -⟩ | ⟨-, -, hge, -⟩ := hr
    · omega
    · exact hsp h0
    · omega
  | add a b | mul a b | cmp a b =>
    obtain ⟨ha, hb, -⟩ := h
    obtain ⟨hge, -⟩ | ⟨-, hge, -⟩ := hr <;> omega
  | jeq a | jne a =>
    obtain ⟨he, hge, -⟩ := hr
    obtain ⟨he', -⟩ | ⟨-, ha, -⟩ := h
    · simp [he] at he'
    · omega

theorem raises_unique {c d : FaultCause} (hc : Raises i s c) (hd : Raises i s d) : c = d := by
  cases i with
  | hlt => exact hc.elim
  | ret | prn a | ldi a b | jmp a =>
    obtain ⟨-, rfl⟩ := hc
    exact hd.2.symm
  | jeq a | jne a =>
    obtain ⟨-, -, rfl⟩ := hc
    exact hd.2.2.symm
  | push a | add a b | mul a b | cmp a b =>
    obtain ⟨hge, rfl⟩ | ⟨ha, hx, rfl⟩ := hc <;> obtain ⟨hge', rfl⟩ | ⟨ha', hx', rfl⟩ := hd
    · rfl
    · omega
    · omega
    · rfl
  | pop a =>
    obtain ⟨htop, rfl⟩ | ⟨hsp, hx, rfl⟩ := hc <;> obtain ⟨htop', rfl⟩ | ⟨hsp', hx', rfl⟩ := hd
    · rfl
    · exact absurd htop hsp'
    · exact absurd htop' hsp
    · rfl
  | call a =>
    obtain ⟨hbig, rfl⟩ | ⟨hfits, h0, rfl⟩ | ⟨hfits, hsp, -, rfl⟩ := hc
    · obtain ⟨-, rfl⟩ | ⟨hfits, -⟩ | ⟨hfits, -⟩ := hd
      · rfl
      · omega
      · omega
    · obtain ⟨hbig, -⟩ | ⟨-, -, rfl⟩ | ⟨-, hsp, -⟩ := hd
      · omega
      · rfl
      · exact absurd h0 hsp
    · obtain ⟨hbig, -⟩ | ⟨-, h0, -⟩ | ⟨-, -, -, rfl⟩ := hd
      · omega
      · exact absurd h0 hsp
      · rfl

theorem exec_of_completed (h : Completed i s t) : exec i s = .next t := by
  obtain ⟨u, hu, hc | ⟨c, hr, -⟩⟩ := exec_next i s
  · rw [hu, completed_unique hc h]
  · exact absurd hr (not_raises_of_completed h)

theorem exec_of_raises {c : FaultCause} (h : Raises i s c) : exec i s = .next (faultEntry c s) := by
  obtain ⟨u, hu, hc | ⟨d, hr, rfl⟩⟩ := exec_next i s
  · exact absurd h (not_raises_of_completed hc)
  · rw [hu, raises_unique hr h]

/-- An instruction raises every cause but UnsupportedOperation (60_exceptions.md R108). -/
theorem raises_code_le {c : FaultCause} (h : Raises i s c) : c.code.toNat ≤ 3 := by
  cases i with
  | hlt => exact h.elim
  | ret | prn a | ldi a b | jmp a =>
    obtain ⟨-, rfl⟩ := h
    simp [FaultCause.code]
  | jeq a | jne a =>
    obtain ⟨-, -, rfl⟩ := h
    simp [FaultCause.code]
  | push a | add a b | mul a b | cmp a b =>
    obtain ⟨-, rfl⟩ | ⟨-, -, rfl⟩ := h <;> simp [FaultCause.code]
  | pop a =>
    obtain ⟨-, rfl⟩ | ⟨-, -, rfl⟩ := h <;> simp [FaultCause.code]
  | call a =>
    obtain ⟨-, rfl⟩ | ⟨-, -, rfl⟩ | ⟨-, -, -, rfl⟩ := h <;> simp [FaultCause.code]

end Sys2Proof.Machine
end

section
/-!
PROOFS about the fetch and the step: what a fetched instruction tells of the room it has in memory, which causes a fetch raises
(30_encoding.md R79, R80), and the cases of a step without rst down to the effect of the instruction.
-/

namespace Sys2Proof

/-- A row of the table makes instructions of the row's length. -/
def Format.MakesLength : Format → Prop
  | .f1 i => i.length = 1
  | .f2 mk => ∀ a, (mk a).length = 2
  | .f3RI mk => ∀ a b, (mk a b).length = 3
  | .f3RR mk => ∀ a b, (mk a b).length = 3

theorem mem_of_findFormat {op : Byte} {f : Format} {rows : List (Byte × Format)} (h : findFormat op rows = some f) :
    (op, f) ∈ rows := by
  induction rows with
  | nil => simp [findFormat] at h
  | cons row rows ih =>
    obtain ⟨b, g⟩ := row
    simp only [findFormat] at h
    split at h
    · simp_all
    · exact List.mem_cons_of_mem _ (ih h)

theorem makesLength_of_formatOf {op : Byte} {f : Format} (h : formatOf op = some f) : f.MakesLength := by
  have hrows : ∀ row ∈ opcodeTable, row.2.MakesLength := by simp [opcodeTable, Format.MakesLength, Instr.length]
  exact hrows _ (mem_of_findFormat h)

/-- The decoder takes exactly the bytes of the instruction's length (30_encoding.md R60, R68). -/
theorem decode_length {bytes rest : List Byte} {i : Instr} (h : decode bytes = .ok (i, rest)) :
    bytes.length = i.length + rest.length := by
  cases bytes with
  | nil => simp [decode] at h
  | cons op tail =>
    simp only [decode] at h
    cases hf : formatOf op with
    | none => simp [hf] at h
    | some f =>
      have hlen := makesLength_of_formatOf hf
      rw [hf] at h
      cases f with
      | f1 j =>
        cases h
        simp only [List.length_cons, show i.length = 1 from hlen]
        omega
      | f2 mk =>
        rcases tail with _ | ⟨a, tail⟩
        · cases h
        · cases h
          simp only [List.length_cons, hlen a]
          omega
      | f3RI mk | f3RR mk =>
        rcases tail with _ | ⟨a, _ | ⟨b, tail⟩⟩
        · cases h
        · cases h
        · cases h
          simp only [List.length_cons, hlen a b]
          omega

end Sys2Proof

namespace Sys2Proof.Machine

variable {pol : FetchPolicy} {p : Nat} {s t : State} {i : Instr} {f : FaultCause}

/-! ## The two fetch policies -/

theorem length_bytesFrom (s : State) (p n : Nat) : (bytesFrom s p n).length = min n (256 - p) := by
  induction n generalizing p with
  | zero => simp [bytesFrom_zero]
  | succ n ih =>
    rcases Nat.lt_or_ge p 256 with hp | hp
    · rw [bytesFrom_succ_of_lt s p n hp, List.length_cons, ih]
      omega
    · rw [bytesFrom_of_ge s p _ hp, List.length_nil]
      omega

theorem fetchStrictThree_of_fits (hp : p + 2 < 256) (s : State) : fetchStrictThree p s = fetchBoundsAware p s := by
  have h1 : memRead ((p : Int) + 1) s = .ok (s.mem.read (p + 1)) := (memRead_succ p 1 s).trans (memRead_nat (by omega) s)
  have h2 : memRead ((p : Int) + 2) s = .ok (s.mem.read (p + 2)) := (memRead_succ p 2 s).trans (memRead_nat hp s)
  simp only [fetchStrictThree, fetchBoundsAware, memRead_nat (show p < 256 by omega) s, h1, h2, except_bind_ok]

/-- Where three bytes do not fit, the StrictThree fetch faults at the first address outside memory. -/
theorem fetchStrictThree_of_not_fits (hp : 256 ≤ p + 2) (s : State) :
    fetchStrictThree p s = .error (.outOfBounds (max p 256 : Nat)) := by
  have h1 : memRead ((p : Int) + 1) s = memRead ((p + 1 : Nat) : Int) s := memRead_succ p 1 s
  have h2 : memRead ((p : Int) + 2) s = memRead ((p + 2 : Nat) : Int) s := memRead_succ p 2 s
  rw [fetchStrictThree, h1, h2]
  rcases Nat.lt_or_ge p 256 with h0 | h0
  · rw [memRead_nat h0, Nat.max_eq_right h0.le]
    rcases Nat.lt_or_ge (p + 1) 256 with hp1 | hp1
    · obtain rfl : p = 254 := by omega
      rw [memRead_nat hp1, memRead_nat_of_ge (by omega)]
      rfl
    · obtain rfl : p = 255 := by omega
      rw [memRead_nat_of_ge (a := 255 + 1) (by omega)]
      rfl
  · rw [memRead_nat_of_ge h0, Nat.max_eq_left h0]
    rfl

theorem fetchBoundsAware_of_fetchAt (h : fetchAt pol p s = .ok i) : fetchBoundsAware p s = .ok i := by
  cases pol with
  | boundsAware => exact h
  | strictThree =>
    have hs : fetchStrictThree p s = .ok i := h
    rcases Nat.lt_or_ge (p + 2) 256 with hp | hp
    · rwa [fetchStrictThree_of_fits hp] at hs
    · simp [fetchStrictThree_of_not_fits hp] at hs

theorem instr_length_pos (i : Instr) : 0 < i.length := by
  cases i <;> exact Nat.succ_pos _

/-- A fetched instruction ends inside memory (30_encoding.md R79). -/
theorem fetchAt_fits (h : fetchAt pol p s = .ok i) : p + i.length ≤ 256 := by
  have hb := fetchBoundsAware_of_fetchAt h
  rw [fetchBoundsAware_eq_decode] at hb
  split at hb
  · rename_i j rest hd
    cases hb
    have hlen := decode_length hd
    have hpos := instr_length_pos i
    rw [length_bytesFrom] at hlen
    omega
  · cases hb

theorem fetchCause_code_le (p : Nat) (e : DecodeError) : (fetchCause p e).code.toNat ≤ 3 := by
  cases e <;> simp [fetchCause, FaultCause.code]

theorem fetchBoundsAware_code_le (h : fetchBoundsAware p s = .error f) : f.code.toNat ≤ 3 := by
  rw [fetchBoundsAware_eq_decode] at h
  split at h
  · cases h
  · cases h
    exact fetchCause_code_le p _

/-- A fetch raises OutOfBounds or IllegalInstruction only (60_exceptions.md R105, R106). -/
theorem fetchAt_code_le (h : fetchAt pol p s = .error f) : f.code.toNat ≤ 3 := by
  cases pol with
  | boundsAware => exact fetchBoundsAware_code_le h
  | strictThree =>
    have hs : fetchStrictThree p s = .error f := h
    rcases Nat.lt_or_ge (p + 2) 256 with hp | hp
    · rw [fetchStrictThree_of_fits hp] at hs
      exact fetchBoundsAware_code_le hs
    · rw [fetchStrictThree_of_not_fits hp] at hs
      cases hs
      simp [FaultCause.code]

/-! ## The step -/

theorem stepWith_of_fetched {c : Config} (hx : Executing s) (hf : fetch c.fetchPolicy s = .ok i) :
    stepWith c s = exec i s.beginStep := by
  rw [stepWith_of_running c hx.2 hx.1, runInstruction, fetch_beginStep, hf]

/-- The cases of a step without rst: an idle step, an instruction that completes, a fault of the fetch or of the
instruction, or nothing. -/
theorem stepWith_cases_of_not_rst {c : Config} (hrst : s.input.rst = false) (h : stepWith c s = .next t) :
    (s.run = .idle ∧ t = idleStep s.input s.beginStep) ∨
    (s.run = .running ∧ ∃ i, fetch c.fetchPolicy s = .ok i ∧ Completed i s.beginStep t) ∨
    (s.run = .running ∧ fetch c.fetchPolicy s ≠ .ok .hlt ∧
      ∃ f : FaultCause, f.code.toNat ≤ 3 ∧ t = faultEntry f s.beginStep) ∨
    ((s.run = .halted ∨ s.run = .faulted) ∧ t = s.beginStep) := by
  obtain ⟨hr, -⟩ | ⟨-, hs, ht⟩ | ⟨-, hs, ⟨f, hf, ht⟩ | ⟨i, hf, hi⟩⟩ | ⟨-, hs, ht⟩ := stepWith_cases h
  · simp [hrst] at hr
  · exact .inl ⟨hs, ht⟩
  · rw [fetch_beginStep] at hf
    exact .inr (.inr (.inl ⟨hs, by simp [hf], f, fetchAt_code_le hf, ht⟩))
  · rw [fetch_beginStep] at hf
    rcases exec_cases hi with hc | ⟨f, hr, ht⟩
    · exact .inr (.inl ⟨hs, i, hf, hc⟩)
    · have hne : fetch c.fetchPolicy s ≠ .ok .hlt := by
        intro hhlt
        cases hf.symm.trans hhlt
        exact hr
      exact .inr (.inr (.inl ⟨hs, hne, f, raises_code_le hr, ht⟩))
  · exact .inr (.inr (.inr ⟨hs, ht⟩))

end Sys2Proof.Machine
end

section
/-!
PROOFS about the invariant: it holds in the reset state, and every step keeps it.
-/

namespace Sys2Proof.Machine

variable {s t : State}

theorem inv_resetWith (c : Config) : Inv (State.resetWith c) :=
  ⟨rfl, by simp [State.resetWith], by simp [State.resetWith], by simp [State.resetWith], by simp [State.resetWith],
    fun _ => ⟨rfl, rfl⟩⟩

/-- A change that writes memory in canonical form and a pc of at most 256, neither enters nor leaves Faulted and leaves the
fault record alone keeps the invariant. -/
theorem Inv.of_sameRecord (hs : Inv s) (hmem : t.mem.wf = true) (hpc : t.pc.toNat ≤ 256)
    (hrun : t.run = .faulted ↔ s.run = .faulted) (hcode : t.faultCode = s.faultCode) (hinfo : t.faultInfo = s.faultInfo)
    (hfpc : t.faultPc = s.faultPc) : Inv t where
  mem_wf := hmem
  pc_le := hpc
  faultPc_le := hfpc ▸ hs.faultPc_le
  code_le := hcode ▸ hs.code_le
  code_iff := by rw [hcode, hs.code_iff, Ne, Ne, hrun]
  blank := by
    rw [hinfo, hfpc, Ne, hrun]
    exact hs.blank

theorem inv_beginStep (hs : Inv s) : Inv s.beginStep :=
  hs.of_sameRecord hs.mem_wf hs.pc_le Iff.rfl rfl rfl rfl

theorem inv_afterRst (c : Config) (s : State) : Inv (afterRst c s) :=
  have h := inv_resetWith c
  h.of_sameRecord h.mem_wf h.pc_le Iff.rfl rfl rfl rfl

theorem inv_faultEntry {f : FaultCause} (hs : Inv s) (hf : f.code.toNat ≤ 3) : Inv (faultEntry f s) where
  mem_wf := hs.mem_wf
  pc_le := hs.pc_le
  faultPc_le := hs.pc_le
  code_le := hf
  code_iff := by cases f <;> simp [FaultCause.code]
  blank := fun h => absurd rfl h

theorem inv_idleStep (h : HostInput) (hs : Inv s) (hidle : s.run = .idle) : Inv (idleStep h s) := by
  have hmem : (idleStep h s).mem.wf = true := by
    rw [idleStep_eq]
    dsimp only
    split
    · exact Memory.wf_write _ _ _ hs.mem_wf h.ldAddr.isLt
    · exact hs.mem_wf
  have hrun : (idleStep h s).run ≠ .faulted := by
    rw [idleStep_eq]
    dsimp only
    split
    · decide
    · simp [hidle]
  refine hs.of_sameRecord hmem ?_ (by simp [hrun, hidle]) ?_ ?_ ?_ <;> rw [idleStep_eq]
  exact hs.pc_le

theorem inv_of_completed {i : Instr} (hs : Inv s) (hrun : s.run ≠ .faulted) (hfits : s.pc.toNat + i.length ≤ 256)
    (h : Completed i s t) : Inv t := by
  have frame := completed_frame h
  have hmem : t.mem.wf = true := by
    obtain hm | ⟨v, hm⟩ := frame.mem <;> rw [hm]
    · exact hs.mem_wf
    · exact Memory.wf_write _ _ v hs.mem_wf (by have := s.sp.isLt; omega)
  have hpc : t.pc.toNat ≤ 256 := by
    obtain hp | ⟨v, hp⟩ := frame.pc <;> rw [hp]
    · rw [advance_toNat s _ hfits]
      exact hfits
    · exact byteToPc_le v
  exact hs.of_sameRecord hmem hpc (by simp [hrun, completed_run_ne_faulted h hrun]) frame.faultCode frame.faultInfo
    frame.faultPc

/-- Settles O54: one lemma for each case of a step; a fetched instruction ends inside memory, so its advance does not wrap. -/
theorem stepKeepsInvariant : Obligations.StepKeepsInvariant := by
  intro c s t hs h
  cases hrst : s.input.rst with
  | true =>
    obtain rfl : t = afterRst c s := by simpa [stepWith, cycle, hrst, eq_comm] using h
    exact inv_afterRst c s
  | false =>
    have hb := inv_beginStep hs
    obtain ⟨hidle, rfl⟩ | ⟨hrun, i, hf, hc⟩ | ⟨-, -, f, hcode, rfl⟩ | ⟨-, rfl⟩ := stepWith_cases_of_not_rst hrst h
    · exact inv_idleStep _ hb hidle
    · exact inv_of_completed hb (by simp [hrun]) (fetchAt_fits hf) hc
    · exact inv_faultEntry hb hcode
    · exact hb

end Sys2Proof.Machine
end

section
/-!
PROOFS of the rules of 10_state.md about single pieces of state: registers (R24, R25), pc (R28, R29), the run state (R32), and
where E (R30) and the fault record (R33) change.
-/

namespace Sys2Proof.Machine

/-! ## Registers -/

theorem regRead_setReg_ne {r : Fin 8} {j : Byte} (h : j.toNat ≠ r.val) (v : Byte) (s : State) :
    regRead j (s.setReg r v) = regRead j s := by
  rcases Nat.lt_or_ge j.toNat 8 with hj | hj
  · rw [regRead_of_lt hj, regRead_of_lt hj, setReg_reg_ne s r _ v (Fin.ne_of_val_ne h)]
  · rw [regRead_of_ge hj, regRead_of_ge hj]

/-- Settles O27: an operand byte names a register below 8 and raises InvalidRegister from there on. -/
theorem registerReadAfterWrite : Obligations.RegisterReadAfterWrite := by
  intro i v s
  refine ⟨fun h => regRead_of_lt h s, fun h => ?_, fun h => ⟨regRead_of_ge h s, regWrite_of_ge h v s⟩⟩
  refine ⟨_, regWrite_of_lt h v s, ?_, fun j hj => ?_, rfl⟩
  · rw [regRead_of_lt h, setReg_reg_same]
  · exact regRead_setReg_ne (fun he => hj (BitVec.eq_of_toNat_eq he)) v s

/-! ## The program counter -/

/-- Settles O40: a fault leaves pc, and an instruction that does not fault has completed, with pc as its row says. -/
theorem programCounterUpdates : Obligations.ProgramCounterUpdates := by
  intro i s t hrun h
  obtain hc | ⟨f, -, rfl⟩ := exec_cases h
  case inr => exact ⟨fun _ => rfl, fun ht => absurd rfl ht⟩
  have hne := completed_run_ne_faulted hc (by simp [hrun])
  refine ⟨fun ht => absurd ht hne, fun _ => ⟨?hlt, ?ret, ?two, ?call, ?jmp, ?jeq, ?jne, ?three⟩⟩
  case hlt =>
    rintro rfl
    exact congrArg State.pc hc
  case ret =>
    rintro rfl
    exact congrArg State.pc hc.2
  case two =>
    rintro a (rfl | rfl | rfl)
    · obtain ⟨_, rfl⟩ := hc
      rfl
    all_goals
      obtain ⟨_, -, rfl⟩ := hc
      rfl
  case call =>
    rintro a rfl
    obtain ⟨ha, -, -, rfl⟩ := hc
    exact ⟨ha, rfl⟩
  case jmp =>
    rintro a rfl
    obtain ⟨ha, rfl⟩ := hc
    exact ⟨ha, rfl⟩
  case jeq | jne =>
    rintro a rfl
    obtain ⟨he, rfl⟩ | ⟨he, ha, rfl⟩ := hc
    · exact ⟨fun he' => by simp [he] at he', fun _ => rfl⟩
    · exact ⟨fun _ => ⟨ha, rfl⟩, fun he' => by simp [he] at he'⟩
  case three =>
    rintro a b (rfl | rfl | rfl | rfl)
    · obtain ⟨_, rfl⟩ := hc
      rfl
    all_goals
      obtain ⟨_, _, rfl⟩ := hc
      rfl

/-- Settles O41: R28 gives the sum in 9 bits, and a fetched instruction ends inside memory, so it does not wrap. -/
theorem advanceNeverWraps : Obligations.AdvanceNeverWraps := by
  intro c s t i hx hf h ht hi
  rw [stepWith_of_fetched hx hf] at h
  obtain ⟨-, hpc⟩ := programCounterUpdates i s.beginStep t hx.1 h
  obtain ⟨hhlt, -, htwo, -, -, -, -, hthree⟩ := hpc ht
  have hadv : t.pc = (s.advance i.length).pc := by
    obtain rfl | ⟨a, hi⟩ | ⟨a, b, hi⟩ := hi
    · exact hhlt rfl
    · rw [htwo a hi]
      obtain rfl | rfl | rfl := hi <;> rfl
    · rw [hthree a b hi]
      obtain rfl | rfl | rfl | rfl := hi <;> rfl
  have hfits : s.pc.toNat + i.length ≤ 256 := fetchAt_fits hf
  rw [hadv, advance_toNat s _ hfits]
  exact ⟨rfl, hfits⟩

/-! ## The run state -/

/-- The step of a Running core: Halted exactly by HLT, Faulted only by a fault entry, else Running. -/
theorem run_of_running_step {c : Config} {s t : State} (hrst : s.input.rst = false) (hs : s.run = .running)
    (h : stepWith c s = .next t) :
    (t.run = .running ∧ fetch c.fetchPolicy s ≠ .ok .hlt) ∨
    (t.run = .halted ∧ fetch c.fetchPolicy s = .ok .hlt) ∨
    (t.run = .faulted ∧ fetch c.fetchPolicy s ≠ .ok .hlt ∧ TookFault s.beginStep t) := by
  obtain ⟨hidle, -⟩ | ⟨-, i, hf, hc⟩ | ⟨-, hf, f, -, rfl⟩ | ⟨hend, -⟩ := stepWith_cases_of_not_rst hrst h
  · simp [hs] at hidle
  · have hrun := (completed_frame hc).run
    by_cases hi : i = .hlt
    · exact .inr (.inl ⟨by simpa [hi] using hrun, hi ▸ hf⟩)
    · exact .inl ⟨by simpa [hi, hs] using hrun, by simpa [hf] using hi⟩
  · exact .inr (.inr ⟨rfl, hf, f, rfl⟩)
  · simp [hs] at hend

/-- Settles O43: the equation of the step in each run state, and `run_of_running_step` for Running. -/
theorem runStateTransitions : Obligations.RunStateTransitions := by
  intro c s t h
  refine ⟨fun hrst => ?_, fun hrst hs => ?_, fun hrst hs => run_of_running_step hrst hs h, fun hrst hs => ?_,
    fun hrst hs => ?_⟩
  · obtain ⟨-, rfl⟩ | ⟨hr, -⟩ | ⟨hr, -⟩ | ⟨hr, -⟩ := stepWith_cases h
    · rfl
    all_goals simp [hrst] at hr
  · rw [stepWith_of_idle c hrst hs, idleStep_eq] at h
    cases h
    simp [hs]
  · rw [stepWith_of_halted_or_faulted c hrst hs] at h
    cases h
    rfl
  · obtain ⟨-, rfl⟩ | ⟨hrun, -⟩ | ⟨hrun, -⟩ | ⟨-, rfl⟩ := stepWith_cases_of_not_rst hrst h
    · simp [idleStep_eq]
    · exact absurd hrun hs
    · exact absurd hrun hs
    · exact ⟨rfl, rfl, rfl, rfl⟩

/-! ## Where E and the fault record change -/

theorem e_changed_by_cmp {c : Config} {s t : State} (hrst : s.input.rst = false) (h : stepWith c s = .next t)
    (he : t.e ≠ s.e) :
    s.run = .running ∧ ∃ (a b : Byte) (ha : a.toNat < 8) (hb : b.toNat < 8),
      fetch c.fetchPolicy s = .ok (.cmp a b) ∧ t.e = decide (s.reg ⟨a.toNat, ha⟩ = s.reg ⟨b.toNat, hb⟩) := by
  obtain ⟨-, rfl⟩ | ⟨hs, i, hf, hc⟩ | ⟨-, -, f, -, rfl⟩ | ⟨-, rfl⟩ := stepWith_cases_of_not_rst hrst h
  · simp [idleStep_eq] at he
  · obtain hsame | ⟨a, b, ha, hb, rfl, hcmp⟩ := (completed_frame hc).e
    · exact absurd hsame he
    · exact ⟨hs, a, b, ha, hb, hf, hcmp⟩
  · exact absurd rfl he
  · exact absurd rfl he

theorem record_changed_by_faultEntry {c : Config} {s t : State} (hrst : s.input.rst = false)
    (h : stepWith c s = .next t) :
    (t.faultCode = s.faultCode ∧ t.faultInfo = s.faultInfo ∧ t.faultPc = s.faultPc) ∨
    (s.run = .running ∧ t.run = .faulted ∧ t.faultPc = s.pc) := by
  obtain ⟨-, rfl⟩ | ⟨-, i, -, hc⟩ | ⟨hs, -, f, -, rfl⟩ | ⟨-, rfl⟩ := stepWith_cases_of_not_rst hrst h
  · simp [idleStep_eq]
  · have frame := completed_frame hc
    exact .inl ⟨frame.faultCode, frame.faultInfo, frame.faultPc⟩
  · exact .inr ⟨hs, rfl, rfl⟩
  · exact .inl ⟨rfl, rfl, rfl⟩

end Sys2Proof.Machine
end

section
/-!
PROOFS of what an instruction does not read (10_state.md R30, R33, R34). An erasure overwrites pieces of the state; if an
instruction reads none of them, two states with the same erasure go on to two states with the same erasure.
-/

namespace Sys2Proof.Machine

/-- `g` overwrites pieces of the state with fixed values, and none of them is a register, pc or memory: what an update of
`s` leaves after erasing is settled by the erasure of `s`. -/
structure Erasure (g : State → State) : Prop where
  regs_eq : ∀ s, (g s).regs = s.regs
  pc_eq : ∀ s, (g s).pc = s.pc
  mem_eq : ∀ s, (g s).mem = s.mem
  setReg_eq : ∀ s r v, g (s.setReg r v) = g ((g s).setReg r v)
  setMem_eq : ∀ s m, g (s.setMem m) = g ((g s).setMem m)
  setPc_eq : ∀ s v, g (s.setPc v) = g ((g s).setPc v)
  setRun_eq : ∀ s r, g (s.setRun r) = g ((g s).setRun r)
  setE_eq : ∀ s v, g (s.setE v) = g ((g s).setE v)
  emit_eq : ∀ s v, g (emit v s) = g (emit v (g s))
  faultEntry_eq : ∀ s c, g (faultEntry c s) = g (faultEntry c (g s))

/-- The instruction does not test E, or E is the same in both states (10_state.md R30). -/
def SameTest (i : Instr) (s s' : State) : Prop := (∀ a, i ≠ .jeq a ∧ i ≠ .jne a) ∨ s'.e = s.e

theorem e_eq_of_sameTest {i : Instr} {s s' : State} (h : SameTest i s s') (hi : ∃ a, i = .jeq a ∨ i = .jne a) :
    s'.e = s.e := by
  obtain ⟨a, hi⟩ := hi
  exact h.resolve_left fun hne => hi.elim (hne a).1 (hne a).2

section

variable {g : State → State} (hg : Erasure g) {i : Instr} {s s' t : State} (h : g s' = g s)

include hg h

theorem Erasure.same_reg (r : Fin 8) : s'.reg r = s.reg r := by
  rw [State.reg, ← hg.regs_eq, h, hg.regs_eq, ← State.reg]

theorem Erasure.same_sp : s'.sp = s.sp := hg.same_reg h 7

theorem Erasure.same_pc : s'.pc = s.pc := by rw [← hg.pc_eq, h, hg.pc_eq]

theorem Erasure.same_mem : s'.mem = s.mem := by rw [← hg.mem_eq, h, hg.mem_eq]

theorem Erasure.same_setReg (r : Fin 8) (v : Byte) : g (s'.setReg r v) = g (s.setReg r v) := by
  rw [hg.setReg_eq, h, ← hg.setReg_eq]

theorem Erasure.same_setMem (m : Memory) : g (s'.setMem m) = g (s.setMem m) := by
  rw [hg.setMem_eq, h, ← hg.setMem_eq]

theorem Erasure.same_setPc (v : PcWord) : g (s'.setPc v) = g (s.setPc v) := by
  rw [hg.setPc_eq, h, ← hg.setPc_eq]

theorem Erasure.same_advance (n : Nat) : g (s'.advance n) = g (s.advance n) := by
  rw [State.advance, State.advance, hg.same_pc h, hg.same_setPc h]

theorem Erasure.same_setRun (r : RunState) : g (s'.setRun r) = g (s.setRun r) := by
  rw [hg.setRun_eq, h, ← hg.setRun_eq]

theorem Erasure.same_setE (v : Bool) : g (s'.setE v) = g (s.setE v) := by
  rw [hg.setE_eq, h, ← hg.setE_eq]

theorem Erasure.same_emit (v : Byte) : g (emit v s') = g (emit v s) := by
  rw [hg.emit_eq, h, ← hg.emit_eq]

theorem Erasure.same_faultEntry (c : FaultCause) : g (faultEntry c s') = g (faultEntry c s) := by
  rw [hg.faultEntry_eq, h, ← hg.faultEntry_eq]

theorem Erasure.same_raises {c : FaultCause} (htest : SameTest i s s') (hr : Raises i s c) : Raises i s' c := by
  have hsp := hg.same_sp h
  have hpc := hg.same_pc h
  cases i with
  | jeq a | jne a => rwa [Raises, e_eq_of_sameTest htest ⟨a, by simp⟩]
  | ret | push a | pop a => rwa [Raises, hsp]
  | call a => rwa [Raises, hsp, hpc]
  | hlt | prn a | ldi a b | add a b | mul a b | jmp a | cmp a b => exact hr

theorem Erasure.same_completed (htest : SameTest i s s') (hc : Completed i s t) : ∃ u, Completed i s' u ∧ g u = g t := by
  have hreg := hg.same_reg h
  have hsp := hg.same_sp h
  have hpc := hg.same_pc h
  have hmem := hg.same_mem h
  cases i with
  | hlt =>
    subst hc
    exact ⟨_, rfl, hg.same_setRun (hg.same_advance h 1) .halted⟩
  | ret =>
    obtain ⟨htop, rfl⟩ := hc
    refine ⟨_, ⟨hsp ▸ htop, rfl⟩, ?_⟩
    rw [hsp, hmem]
    exact hg.same_setPc (hg.same_setReg h _ _) _
  | prn a =>
    obtain ⟨ha, rfl⟩ := hc
    refine ⟨_, ⟨ha, rfl⟩, ?_⟩
    rw [hreg]
    exact hg.same_advance (hg.same_emit h _) 2
  | push a =>
    obtain ⟨ha, h0, rfl⟩ := hc
    refine ⟨_, ⟨ha, hsp ▸ h0, rfl⟩, ?_⟩
    rw [hreg, hsp, hmem]
    exact hg.same_advance (hg.same_setMem (hg.same_setReg h _ _) _) 2
  | pop a =>
    obtain ⟨ha, htop, rfl⟩ := hc
    refine ⟨_, ⟨ha, hsp ▸ htop, rfl⟩, ?_⟩
    rw [hsp, hmem]
    exact hg.same_advance (hg.same_setReg (hg.same_setReg h _ _) _ _) 2
  | call a =>
    obtain ⟨ha, hfits, h0, rfl⟩ := hc
    refine ⟨_, ⟨ha, hpc ▸ hfits, hsp ▸ h0, rfl⟩, ?_⟩
    have hset := hg.same_setReg h 7 (s.sp - 1#8)
    rw [hsp, hmem, hpc, hg.same_reg hset]
    exact hg.same_setPc (hg.same_setMem hset _) _
  | ldi a imm =>
    obtain ⟨ha, rfl⟩ := hc
    exact ⟨_, ⟨ha, rfl⟩, hg.same_advance (hg.same_setReg h _ _) 3⟩
  | add a b | mul a b =>
    obtain ⟨ha, hb, rfl⟩ := hc
    refine ⟨_, ⟨ha, hb, rfl⟩, ?_⟩
    rw [hreg, hreg]
    exact hg.same_advance (hg.same_setReg h _ _) 3
  | jmp a =>
    obtain ⟨ha, rfl⟩ := hc
    refine ⟨_, ⟨ha, rfl⟩, ?_⟩
    rw [hreg]
    exact hg.same_setPc h _
  | jeq a | jne a =>
    have he : s'.e = s.e := e_eq_of_sameTest htest ⟨a, by simp⟩
    obtain ⟨hnot, rfl⟩ | ⟨htaken, ha, rfl⟩ := hc
    · exact ⟨_, .inl ⟨he.trans hnot, rfl⟩, hg.same_advance h 2⟩
    · refine ⟨_, .inr ⟨he.trans htaken, ha, rfl⟩, ?_⟩
      rw [hreg]
      exact hg.same_setPc h _
  | cmp a b =>
    obtain ⟨ha, hb, rfl⟩ := hc
    refine ⟨_, ⟨ha, hb, rfl⟩, ?_⟩
    rw [hreg, hreg]
    exact hg.same_advance (hg.same_setE h _) 3

/-- An instruction that does not read what is erased does the same to the rest. -/
theorem Erasure.same_exec (htest : SameTest i s s') (hi : exec i s = .next t) : ∃ u, exec i s' = .next u ∧ g u = g t := by
  rcases exec_cases hi with hc | ⟨c, hr, rfl⟩
  · obtain ⟨u, hu, hgu⟩ := hg.same_completed h htest hc
    exact ⟨u, exec_of_completed hu, hgu⟩
  · exact ⟨_, exec_of_raises (hg.same_raises h htest hr), hg.same_faultEntry h c⟩

end

/-! ## The three erasures -/

/-- Forget E. -/
def eraseE (s : State) : State := { s with e := false }

/-- Forget the fault record. -/
def eraseRecord (s : State) : State := { s with faultCode := 0#3, faultInfo := 0#16, faultPc := 0#9 }

/-- Forget all but the registers, pc, E, memory and the run state (10_state.md R34). -/
def eraseHidden (s : State) : State := { eraseRecord s with outPort := none, out := [], inputs := [] }

theorem erasure_eraseE : Erasure eraseE := by constructor <;> intros <;> rfl

theorem erasure_eraseRecord : Erasure eraseRecord := by constructor <;> intros <;> rfl

theorem erasure_eraseHidden : Erasure eraseHidden := by constructor <;> intros <;> rfl

/-- Settles O42: a step changes E by CMP alone, and an instruction other than JEQ and JNE works up to the erasure of E. -/
theorem equalFlagDiscipline : Obligations.EqualFlagDiscipline := by
  refine ⟨fun c s t hrst h he => e_changed_by_cmp hrst h he, fun i s t v hi h => ?_, rfl⟩
  obtain ⟨u, hu, hgu⟩ := erasure_eraseE.same_exec (s := s) (s' := { s with e := v }) rfl (.inl hi) h
  exact ⟨u, hu, congrArg (fun x : State => { x with e := t.e }) hgu⟩

/-- Settles O44: a step changes the record by a fault entry alone, and an instruction works up to the erasure of the record. -/
theorem faultRecordDiscipline : Obligations.FaultRecordDiscipline := by
  refine ⟨fun c s t hrst h => record_changed_by_faultEntry hrst h, fun i s t code info p h => ?_⟩
  obtain ⟨u, hu, hgu⟩ := erasure_eraseRecord.same_exec (s := s)
    (s' := { s with faultCode := code, faultInfo := info, faultPc := p }) rfl (.inr rfl) h
  exact ⟨u, hu, congrArg (fun x : State =>
    { x with faultCode := t.faultCode, faultInfo := t.faultInfo, faultPc := t.faultPc }) hgu⟩

theorem eraseHidden_eq_iff {s s' : State} :
    eraseHidden s' = eraseHidden s ↔
      s'.regs = s.regs ∧ s'.pc = s.pc ∧ s'.e = s.e ∧ s'.mem = s.mem ∧ s'.run = s.run := by
  simp [eraseHidden, eraseRecord, and_comm (a := s'.mem = s.mem)]

/-- Settles O47: an instruction works up to the erasure of the fault record, the output and the host's inputs. -/
theorem visibleStateDecides : Obligations.VisibleStateDecides := by
  intro i s s' t hregs hpc he hmem hrun h
  obtain ⟨u, hu, hgu⟩ :=
    erasure_eraseHidden.same_exec (eraseHidden_eq_iff.mpr ⟨hregs, hpc, he, hmem, hrun⟩) (.inr he) h
  exact ⟨u, hu, eraseHidden_eq_iff.mp hgu⟩

end Sys2Proof.Machine
end

section
/-!
PROOFS of the rules of 20_memory.md about a byte of memory (R43 to R45, R48, R57, R58) and the stack unit (R51 to R53): a read after
a write, what a push and a pop do, pops after pushes, and the one store that the fetch and the stack share.
-/

namespace Sys2Proof

/-! ## The decoder on an encoding and on an opcode of no instruction (30_encoding.md R66, R70) -/

theorem decode_encode_append (i : Instr) (rest : List Byte) : decode (encode i ++ rest) = .ok (i, rest) := by
  cases i <;> rfl

/-- The instruction a row of the table makes of two operand bytes; a shorter one drops what it has no place for. -/
def Format.make (a b : Byte) : Format → Instr
  | .f1 i => i
  | .f2 mk => mk a
  | .f3RI mk => mk a b
  | .f3RR mk => mk a b

theorem opcode_make_of_formatOf {op : Byte} {f : Format} (h : formatOf op = some f) (a b : Byte) :
    (f.make a b).opcode = op := by
  have hrows : ∀ row ∈ opcodeTable, (row.2.make a b).opcode = row.1 := by
    simp [opcodeTable, Format.make, Instr.opcode]
  exact hrows _ (mem_of_findFormat h)

theorem formatOf_eq_none {op : Byte} (h : ∀ i : Instr, i.opcode ≠ op) : formatOf op = none := by
  cases hf : formatOf op with
  | none => rfl
  | some f => exact absurd (opcode_make_of_formatOf hf 0#8 0#8) (h _)

end Sys2Proof

namespace Sys2Proof.Machine

variable {s t u : State} {v : Byte}

/-! ## One byte of memory -/

theorem memRead_same_of_write {a : Nat} (hwf : s.mem.wf = true) (ha : a < 256) (ht : t.mem = s.mem.write a v) :
    memRead a t = .ok v := by
  rw [memRead_nat ha, ht, Memory.read_write_same _ _ _ hwf]

theorem memRead_ne_of_write {a : Nat} (ht : t.mem = s.mem.write a v) {b : Int} (hb : b ≠ a) :
    memRead b t = memRead b s := by
  by_cases hout : b < 0 ∨ b > 255
  · rw [memRead_out hout, memRead_out hout]
  · lift b to Nat using by omega
    rw [memRead_nat (by omega), memRead_nat (by omega), ht, Memory.read_write_ne _ _ _ _ (by exact_mod_cast hb)]

/-- Settles O28: inside memory the access is the raw one of the list, outside both raise the address. -/
theorem memoryReadAfterWrite : Obligations.MemoryReadAfterWrite := by
  intro a v s hwf
  refine ⟨fun h0 h255 => ?_, fun h0 h255 => ?_, fun hout => ⟨memRead_out hout s, memWrite_out hout v s⟩⟩
  · lift a to Nat using h0
    have ha : a < 256 := by omega
    exact ⟨_, memWrite_nat ha v s, memRead_same_of_write hwf ha rfl, fun _ => memRead_ne_of_write rfl, rfl⟩
  · lift a to Nat using h0
    exact memRead_nat (by omega) s

/-! ## One push, one pop -/

theorem toNat_sub_one {w : Byte} (h : w ≠ 0#8) : (w - 1#8).toNat = w.toNat - 1 := by bv_omega

theorem toNat_pos {w : Byte} (h : w ≠ 0#8) : 0 < w.toNat := by bv_omega

theorem toNat_add_one {w : Byte} (h : w ≠ 0xFF#8) : (w + 1#8).toNat = w.toNat + 1 := by bv_omega

/-- Settles O29: `push_zero` at SP = 0x00, and above it the two writes of `push_pos`. -/
theorem pushDecrementsThenWrites : Obligations.PushDecrementsThenWrites := by
  intro v s hwf
  refine ⟨fun h => push_zero h v, fun h => ?_⟩
  have hsp : (s.sp - 1#8).toNat = s.sp.toNat - 1 := toNat_sub_one h
  refine ⟨_, push_pos h v, ?_⟩
  rw [setMem_reg, setReg_reg_same, hsp]
  refine ⟨Nat.sub_add_cancel (toNat_pos h), memRead_same_of_write hwf (by have := s.sp.isLt; omega) rfl,
    fun a => memRead_ne_of_write rfl, fun r hr => setReg_reg_ne s 7 r _ hr, rfl⟩

/-- Settles O30: `pop_top` at SP = 0xFF, and below it the read and the write of `pop_below`. -/
theorem popReadsThenIncrements : Obligations.PopReadsThenIncrements := by
  intro s
  refine ⟨fun h => pop_top h, fun h => ⟨_, _, pop_below h, memRead_nat s.sp.isLt s, ?_, fun r hr => ?_, rfl⟩⟩
  · rw [setReg_reg_same]
    exact toNat_add_one h
  · exact setReg_reg_ne s 7 r _ hr

/-! ## Pops after pushes (20_memory.md R53) -/

/-- A push that completes moved SP down from above 0x00 and wrote one below it. -/
theorem push_eq_ok (h : push v s = .ok t) :
    s.sp ≠ 0#8 ∧ t = (s.setReg 7 (s.sp - 1#8)).setMem (s.mem.write (s.sp.toNat - 1) v) := by
  obtain ⟨-, hp⟩ | ⟨hsp, hp⟩ := push_cases v s
  · cases hp.symm.trans h
  · cases hp.symm.trans h
    exact ⟨hsp, rfl⟩

theorem pushAll_cons_eq_ok {vs : List Byte} (h : pushAll (v :: vs) s = .ok t) :
    ∃ u, push v s = .ok u ∧ pushAll vs u = .ok t := by
  rw [pushAll] at h
  cases hp : push v s with
  | error c => simp [hp] at h
  | ok u => exact ⟨u, rfl, by simpa [hp] using h⟩

/-- Pushes write below SP: no byte from SP upward changes. -/
theorem pushAll_read_of_sp_le {vs : List Byte} (h : pushAll vs s = .ok t) {x : Nat} (hx : s.sp.toNat ≤ x) :
    t.mem.read x = s.mem.read x := by
  induction vs generalizing s with
  | nil =>
    cases h
    rfl
  | cons v vs ih =>
    obtain ⟨u, hu, hrest⟩ := pushAll_cons_eq_ok h
    obtain ⟨hsp, rfl⟩ := push_eq_ok hu
    have hpos := toNat_pos hsp
    rw [ih hrest (by rw [setMem_sp, setReg_sp, toNat_sub_one hsp]; omega), setMem_mem,
      Memory.read_write_ne _ _ _ v (by omega)]

theorem setReg_reg_self (s : State) (r : Fin 8) : s.setReg r (s.reg r) = s := by
  simp [State.setReg, State.reg]

/-- A pop undoes a push in every register, whatever memory has become, as long as the byte pushed still stands there. -/
theorem pop_of_push (h : push v s = .ok t) {m : Memory} (hm : m.read t.sp.toNat = v) :
    pop (t.setMem m) = .ok (v, s.setMem m) := by
  obtain ⟨hsp, rfl⟩ := push_eq_ok h
  have hsp' : s.sp - 1#8 ≠ 0xFF#8 := by bv_omega
  have hregs : (s.setReg 7 (s.sp - 1#8)).setReg 7 (s.sp - 1#8 + 1#8) = s := by
    rw [setReg_same, BitVec.sub_add_cancel]
    exact setReg_reg_self s 7
  rw [pop_below (by simpa using hsp')]
  simp only [setMem_sp, setReg_sp, setMem_mem] at hm ⊢
  rw [hm]
  exact congrArg (fun x : State => Except.ok (v, x.setMem m)) hregs

/-- One more pop after n pops. -/
theorem popMany_succ_of_ok {n : Nat} {vs : List Byte} (h : popMany n s = .ok (vs, t)) (hp : pop t = .ok (v, u)) :
    popMany (n + 1) s = .ok (vs ++ [v], u) := by
  induction n generalizing s vs with
  | zero =>
    cases h
    simp [popMany, hp]
  | succ n ih =>
    rw [popMany] at h ⊢
    cases hs : pop s with
    | error c => simp [hs] at h
    | ok r =>
      obtain ⟨w, s'⟩ := r
      cases hrest : popMany n s' with
      | error c => simp [hs, hrest] at h
      | ok r =>
        obtain ⟨ws, t'⟩ := r
        simp only [hs, hrest, except_bind_ok] at h
        cases h
        simp [ih hrest]

/-- Settles O31, by induction on the values pushed: the first one pushed is popped last. -/
theorem stackRoundTrip : Obligations.StackRoundTrip := by
  intro vs
  induction vs with
  | nil =>
    rintro s t - h
    cases h
    rfl
  | cons v vs ih =>
    intro s t hwf h
    obtain ⟨u, hu, hrest⟩ := pushAll_cons_eq_ok h
    have hu' := push_eq_ok hu
    have hlt : s.sp.toNat - 1 < 256 := by have := s.sp.isLt; omega
    have hwf' : u.mem.wf = true := by
      rw [hu'.2]
      exact Memory.wf_write _ _ v hwf hlt
    have hbyte : u.mem.read u.sp.toNat = v := by
      rw [hu'.2, setMem_sp, setReg_sp, toNat_sub_one hu'.1]
      exact Memory.read_write_same _ _ v hwf
    have hkept : t.mem.read u.sp.toNat = v := (pushAll_read_of_sp_le hrest le_rfl).trans hbyte
    rw [List.reverse_cons, List.length_cons]
    exact popMany_succ_of_ok (ih u t hwf' hrest) (pop_of_push hu hkept)

/-! ## One store for the fetch and the stack (20_memory.md R57, R58) -/

theorem memWrite_eq_ok {a : Nat} (ha : a < 256) (h : memWrite a v s = .ok t) : t = s.setMem (s.mem.write a v) := by
  rw [memWrite_nat ha] at h
  exact (Except.ok.inj h).symm

theorem bytesFrom_add (s : State) (p n k : Nat) : bytesFrom s p (n + k) = bytesFrom s p n ++ bytesFrom s (p + n) k := by
  induction n generalizing p with
  | zero => simp [bytesFrom_zero]
  | succ n ih =>
    rcases Nat.lt_or_ge p 256 with hp | hp
    · rw [Nat.add_right_comm, bytesFrom_succ_of_lt s p _ hp, bytesFrom_succ_of_lt s p _ hp, ih, List.cons_append,
        Nat.add_right_comm, Nat.add_assoc]
    · simp [bytesFrom_of_ge, hp, Nat.le_add_right_of_le hp]

theorem getElem?_bytesFrom (s : State) {p k n : Nat} (hk : k < n) (hp : p + k < 256) :
    (bytesFrom s p n)[k]? = some (s.mem.read (p + k)) := by
  obtain ⟨m, rfl⟩ : ∃ m, n = k + (m + 1) := ⟨n - k - 1, by omega⟩
  have hlen : (bytesFrom s p k).length = k := by rw [length_bytesFrom]; omega
  rw [bytesFrom_add, bytesFrom_succ_of_lt s _ m hp, List.getElem?_append_right hlen.le, hlen, Nat.sub_self]
  rfl

/-- Where the bytes of an instruction stand in memory, the fetch reads it (30_encoding.md R79). -/
theorem fetchBoundsAware_of_encoded {p : Nat} {i : Instr} (h : bytesFrom s p i.length = encode i) :
    fetchBoundsAware p s = .ok i := by
  have h3 : i.length + (3 - i.length) = 3 := by cases i <;> rfl
  rw [fetchBoundsAware_eq_decode, ← h3, bytesFrom_add, h, decode_encode_append]

theorem fetchBoundsAware_of_illegal {p : Nat} (hp : p < 256) (h : ∀ i : Instr, i.opcode ≠ s.mem.read p) :
    fetchBoundsAware p s = .error (.illegalInstruction (s.mem.read p)) := by
  simp [fetchBoundsAware, memRead_nat hp, formatOf_eq_none h]

/-- Settles O57: every reader goes through `Memory.read`, so the byte written is what each of them finds at its address. -/
theorem memoryIsOneFlatStore : Obligations.MemoryIsOneFlatStore := by
  intro a v s t hwf h
  have ha : a.toNat < 256 := a.isLt
  have ht : t.mem = s.mem.write a.toNat v := congrArg State.mem (memWrite_eq_ok ha h)
  have hread : t.mem.read a.toNat = v := by rw [ht, Memory.read_write_same _ _ v hwf]
  refine ⟨fun b => ?_, fun p k n hpk hk => ?_, fun i hop hrest => ?_, fun hill => ?_, fun hsp hne => ?_⟩
  · rw [ht, Memory.read_write _ _ b v hwf]
  · rw [getElem?_bytesFrom t hk (hpk ▸ ha), hpk, hread]
  · apply fetchBoundsAware_of_encoded
    obtain ⟨n, hn⟩ := Nat.exists_eq_add_one.mpr (instr_length_pos i)
    rw [hn, Nat.add_sub_cancel] at hrest
    rw [hn, bytesFrom_succ_of_lt t _ n ha, hread, hrest, ← hop, encode]
  · subst hread
    exact fetchBoundsAware_of_illegal ha hill
  · have hpop := pop_below (s := t) (hsp.trans_ne hne)
    rw [show t.sp = a from hsp, hread] at hpop
    exact ⟨_, hpop, rfl⟩

end Sys2Proof.Machine
end

section
/-!
PROOFS about the step and memory: the frames of the stack instructions (20_memory.md R51, R52), the addresses outside memory that
a core can form (R42), and who writes memory (R38, R59).
-/

namespace Sys2Proof.Machine

variable {s t : State} {i : Instr} {a : Byte} {p : Nat} {x : Int}

/-! ## What PUSH, CALL, POP and RET change -/

/-- A PUSH or CALL that completes wrote SP and the byte one below it, and pc. -/
theorem completed_storing (hi : i = .push a ∨ i = .call a) (h : Completed i s t) :
    s.sp ≠ 0#8 ∧ t.regs = (s.setReg 7 (s.sp - 1#8)).regs ∧ (∃ v, t.mem = s.mem.write (s.sp.toNat - 1) v) ∧ t.e = s.e ∧
      SameControl s t := by
  obtain rfl | rfl := hi
  · obtain ⟨_, hsp, rfl⟩ := h
    exact ⟨hsp, rfl, ⟨_, rfl⟩, rfl, ⟨rfl, rfl, rfl, rfl, rfl, rfl, rfl⟩⟩
  · obtain ⟨_, -, hsp, rfl⟩ := h
    exact ⟨hsp, rfl, ⟨_, rfl⟩, rfl, ⟨rfl, rfl, rfl, rfl, rfl, rfl, rfl⟩⟩

/-- A POP or RET that completes wrote SP, the register a POP names, and pc. -/
theorem completed_popping (hi : i = .pop a ∨ i = .ret) (h : Completed i s t) :
    (∀ r : Fin 8, r ≠ 7 → (i = .pop a → r.val ≠ a.toNat) → t.reg r = s.reg r) ∧ t.mem = s.mem ∧ t.e = s.e ∧
      SameControl s t := by
  obtain rfl | rfl := hi
  · obtain ⟨ha, -, rfl⟩ := h
    refine ⟨fun r hr hra => ?_, rfl, rfl, ⟨rfl, rfl, rfl, rfl, rfl, rfl, rfl⟩⟩
    rw [advance_reg, setReg_reg_ne _ _ r _ (Fin.ne_of_val_ne (hra rfl)), setReg_reg_ne s 7 r _ hr]
  · obtain ⟨-, rfl⟩ := h
    exact ⟨fun r hr _ => setReg_reg_ne s 7 r _ hr, rfl, rfl, ⟨rfl, rfl, rfl, rfl, rfl, rfl, rfl⟩⟩

theorem pushAddress_of_ne_zero (h : s.sp ≠ 0#8) : pushAddress s = ((s.sp.toNat - 1 : Nat) : Int) := by
  have hpos := toNat_pos h
  unfold pushAddress
  omega

/-- Settles O25: a completed one wrote memory at its push address alone, a faulted one wrote nothing. -/
theorem storingFrame : Obligations.StoringFrame := by
  intro i a s t hi h
  obtain hc | ⟨c, -, rfl⟩ := exec_cases h
  · obtain ⟨hsp, hregs, ⟨v, hmem⟩, he, hctl⟩ := completed_storing hi hc
    have haddr := pushAddress_of_ne_zero hsp
    refine ⟨fun r hr => ?_, he, fun d hd x hx => ?_, fun hneg => ?_, .inl hctl⟩
    · rw [State.reg, hregs, ← State.reg, setReg_reg_ne s 7 r _ hr]
    · rw [hmem, Memory.read_write_ne _ _ x v (by omega)]
    · omega
  · exact ⟨fun _ _ => rfl, rfl, fun _ _ _ _ => rfl, fun _ _ => rfl, .inr ⟨c, rfl⟩⟩

/-- Settles O26: a completed one wrote registers and pc alone, a faulted one wrote nothing. -/
theorem poppingFrame : Obligations.PoppingFrame := by
  intro i a s t hi h
  obtain hc | ⟨c, -, rfl⟩ := exec_cases h
  · obtain ⟨hregs, hmem, he, hctl⟩ := completed_popping hi hc
    exact ⟨hregs, he, fun x => by rw [hmem], .inl hctl⟩
  · exact ⟨fun _ _ _ => rfl, rfl, fun _ => rfl, .inr ⟨c, rfl⟩⟩

/-! ## Addresses outside memory (20_memory.md R42) -/

/-- A fetch is out of bounds at the first byte the decoder misses. -/
theorem fetchCause_outOfBounds {bytes : List Byte} {e : DecodeError} (hd : decode bytes = .error e)
    (hx : fetchCause p e = .outOfBounds x) : x = (p + bytes.length : Nat) ∧ bytes.length < 3 := by
  rcases bytes with _ | ⟨op, tail⟩
  · cases hd
    cases hx
    simp
  · simp only [decode] at hd
    cases hf : formatOf op with
    | none =>
      rw [hf] at hd
      cases hd
      cases hx
    | some f =>
      rw [hf] at hd
      cases f with
      | f1 j => cases hd
      | f2 mk =>
        rcases tail with _ | ⟨b, tail⟩
        · cases hd
          cases hx
          simp
        · cases hd
      | f3RI mk | f3RR mk =>
        rcases tail with _ | ⟨b, _ | ⟨d, tail⟩⟩
        · cases hd
          cases hx
          simp
        · cases hd
          cases hx
          simp
        · cases hd

theorem fetchBoundsAware_outOfBounds (hp : p ≤ 256) (h : fetchBoundsAware p s = .error (.outOfBounds x)) : x = 256 := by
  rw [fetchBoundsAware_eq_decode] at h
  split at h
  · cases h
  · rename_i e hd
    obtain ⟨hx, hlen⟩ := fetchCause_outOfBounds hd (Except.error.inj h)
    rw [length_bytesFrom] at hx hlen
    omega

theorem fetchAt_outOfBounds {pol : FetchPolicy} (hp : p ≤ 256) (h : fetchAt pol p s = .error (.outOfBounds x)) :
    x = 256 := by
  cases pol with
  | boundsAware => exact fetchBoundsAware_outOfBounds hp h
  | strictThree =>
    have hs : fetchStrictThree p s = .error (.outOfBounds x) := h
    rcases Nat.lt_or_ge (p + 2) 256 with hfits | hfits
    · rw [fetchStrictThree_of_fits hfits] at hs
      exact fetchBoundsAware_outOfBounds hp hs
    · rw [fetchStrictThree_of_not_fits hfits, Nat.max_eq_right hp] at hs
      cases hs
      rfl

/-- An instruction that ends inside memory is out of bounds below a push, above a pop, or at the return address of a CALL. -/
theorem raises_outOfBounds (hfits : s.pc.toNat + i.length ≤ 256) (h : Raises i s (.outOfBounds x)) : x = -1 ∨ x = 256 := by
  cases i with
  | hlt => exact h.elim
  | ret =>
    obtain ⟨-, hx⟩ := h
    cases hx
    exact .inr rfl
  | prn a | ldi a b | jmp a =>
    obtain ⟨-, hx⟩ := h
    cases hx
  | jeq a | jne a =>
    obtain ⟨-, -, hx⟩ := h
    cases hx
  | add a b | mul a b | cmp a b =>
    obtain ⟨-, hx⟩ | ⟨-, -, hx⟩ := h <;> cases hx
  | push a =>
    obtain ⟨-, hx⟩ | ⟨-, -, hx⟩ := h <;> cases hx
    exact .inl rfl
  | pop a =>
    obtain ⟨-, hx⟩ | ⟨-, -, hx⟩ := h <;> cases hx
    exact .inr rfl
  | call a =>
    have hpc : s.pc.toNat + 2 ≤ 256 := hfits
    obtain ⟨hbig, hx⟩ | ⟨-, -, hx⟩ | ⟨-, -, -, hx⟩ := h <;> cases hx
    · omega
    · exact .inl rfl

/-- A Running core that ends Faulted took a fault of its fetch or of the instruction it fetched (60_exceptions.md R111). -/
theorem fault_of_executing_step {c : Config} (hx : Executing s) (h : stepWith c s = .next t) (ht : t.run = .faulted) :
    ∃ f, t = faultEntry f s.beginStep ∧
      (fetch c.fetchPolicy s = .error f ∨ ∃ i, fetch c.fetchPolicy s = .ok i ∧ Raises i s.beginStep f) := by
  obtain ⟨hrun, hrst⟩ := hx
  cases hf : fetch c.fetchPolicy s with
  | error f =>
    rw [stepWith_of_running c hrst hrun, runInstruction, fetch_beginStep, hf] at h
    cases h
    exact ⟨f, rfl, .inl rfl⟩
  | ok i =>
    rw [stepWith_of_fetched ⟨hrun, hrst⟩ hf] at h
    obtain hc | ⟨f, hr, rfl⟩ := exec_cases h
    · exact absurd ht (completed_run_ne_faulted hc (by simp [hrun]))
    · exact ⟨f, rfl, .inr ⟨i, rfl, hr⟩⟩

theorem eq_outOfBounds_of_code {f : FaultCause} (h : f.code = 1#3) : ∃ x, f = .outOfBounds x := by
  cases f with
  | outOfBounds x => exact ⟨x, rfl⟩
  | _ => simp [FaultCause.code] at h

/-- Settles O38: a fetch from pc at most 256 is out of bounds at 256 alone, and an instruction that was fetched ends inside
memory. -/
theorem outOfBoundsAddresses : Obligations.OutOfBoundsAddresses := by
  intro c s t hpc hx h ht hcode
  obtain ⟨f, rfl, hf⟩ := fault_of_executing_step hx h ht
  obtain ⟨x, rfl⟩ := eq_outOfBounds_of_code hcode
  have haddr : x = -1 ∨ x = 256 := by
    obtain hf | ⟨i, hf, hr⟩ := hf
    · exact .inr (fetchAt_outOfBounds hpc hf)
    · exact raises_outOfBounds (fetchAt_fits hf) hr
  obtain rfl | rfl := haddr
  · exact .inl rfl
  · exact .inr rfl

/-! ## Who writes memory (20_memory.md R38, R59) -/

theorem completed_mem (h : Completed i s t) :
    t.mem = s.mem ∨ ∃ a v, (i = .push a ∨ i = .call a) ∧ s.sp ≠ 0#8 ∧ t.mem = s.mem.write (s.sp.toNat - 1) v := by
  cases i with
  | push a =>
    obtain ⟨hsp, -, ⟨v, hmem⟩, -⟩ := completed_storing (.inl rfl) h
    exact .inr ⟨a, v, .inl rfl, hsp, hmem⟩
  | call a =>
    obtain ⟨hsp, -, ⟨v, hmem⟩, -⟩ := completed_storing (.inr rfl) h
    exact .inr ⟨a, v, .inr rfl, hsp, hmem⟩
  | hlt =>
    subst h
    exact .inl rfl
  | ret =>
    obtain ⟨-, rfl⟩ := h
    exact .inl rfl
  | prn a | ldi a b | jmp a =>
    obtain ⟨_, rfl⟩ := h
    exact .inl rfl
  | pop a =>
    obtain ⟨_, -, rfl⟩ := h
    exact .inl rfl
  | add a b | mul a b | cmp a b =>
    obtain ⟨_, _, rfl⟩ := h
    exact .inl rfl
  | jeq a | jne a =>
    obtain ⟨-, rfl⟩ | ⟨-, _, rfl⟩ := h <;> exact .inl rfl

theorem idleStep_read_eq {h : HostInput} {x : Nat} (hx : h.ldWe = true → x ≠ h.ldAddr.toNat) (s : State) :
    (idleStep h s).mem.read x = s.mem.read x := by
  rw [idleStep_eq]
  cases hw : h.ldWe with
  | false => simp
  | true => simp [Memory.read_write_ne _ _ x _ (hx hw)]

/-- Settles O45: a completed instruction writes memory as a push only, and the load port as R17 says. -/
theorem memoryWriters : Obligations.MemoryWriters := by
  intro c s t hrst h x hx
  obtain ⟨hs, rfl⟩ | ⟨hs, i, hf, hc⟩ | ⟨-, -, f, -, rfl⟩ | ⟨-, rfl⟩ := stepWith_cases_of_not_rst hrst h
  · right
    by_contra hport
    exact hx (idleStep_read_eq (fun hw hxa => hport ⟨hs, hw, hxa⟩) s.beginStep)
  · left
    obtain hmem | ⟨a, v, hi, hsp, hmem⟩ := completed_mem hc
    · exact absurd (congrArg (Memory.read · x) hmem) hx
    · obtain rfl : x = s.sp.toNat - 1 := by
        by_contra hne
        rw [hmem] at hx
        exact hx (Memory.read_write_ne _ _ x v hne)
      refine ⟨hs, ⟨a, ?_⟩, pushAddress_of_ne_zero hsp⟩
      obtain rfl | rfl := hi
      · exact .inl hf
      · exact .inr hf
  · exact absurd rfl hx
  · exact absurd rfl hx

end Sys2Proof.Machine
end

section
/-!
PROOFS about the encoding (30_encoding.md R60 to R71): the decoder and the encoder are inverse to each other, which bytes are
opcodes, and what the bits of an opcode say.
-/

namespace Sys2Proof

variable {i : Instr} {op : Byte} {f : Format} {bytes rest : List Byte}

/-! ## Decoding and encoding are inverse -/

/-- Settles O2: the decoder computes on each instruction's encoding, the operand bytes and the bytes behind it free. -/
theorem decodeInvertsEncode : Obligations.DecodeInvertsEncode := decode_encode_append

/-- A row of the table makes the instruction that its opcode and the operand bytes encode. -/
def Format.Encodes (op : Byte) : Format → Prop
  | .f1 i => encode i = [op]
  | .f2 mk => ∀ a, encode (mk a) = [op, a]
  | .f3RI mk => ∀ a b, encode (mk a b) = [op, a, b]
  | .f3RR mk => ∀ a b, encode (mk a b) = [op, a, b]

theorem encodes_of_formatOf (h : formatOf op = some f) : f.Encodes op := by
  have hrows : ∀ row ∈ opcodeTable, row.2.Encodes row.1 := by
    simp [opcodeTable, Format.Encodes, encode, Instr.opcode, Instr.operandBytes]
  exact hrows _ (mem_of_findFormat h)

theorem encode_of_takeOperands (hf : f.Encodes op) (h : takeOperands op f bytes = .ok (i, rest)) :
    op :: bytes = encode i ++ rest := by
  cases f with
  | f1 j =>
    cases h
    rw [show encode i = [op] from hf]
    rfl
  | f2 mk =>
    rcases bytes with _ | ⟨a, bytes⟩
    · cases h
    · cases h
      rw [hf a]
      rfl
  | f3RI mk | f3RR mk =>
    rcases bytes with _ | ⟨a, _ | ⟨b, bytes⟩⟩
    · cases h
    · cases h
    · cases h
      rw [hf a b]
      rfl

theorem decode_cons_of_formatOf (h : formatOf op = some f) (bytes : List Byte) :
    decode (op :: bytes) = takeOperands op f bytes := by
  simp only [decode, h]

theorem decode_cons_of_illegal (h : ∀ i : Instr, i.opcode ≠ op) (bytes : List Byte) :
    decode (op :: bytes) = .error (.illegalOpcode op) := by
  simp only [decode, formatOf_eq_none h]

/-- Settles O3: the opcode found a row, and the row took the operand bytes it encodes. -/
theorem encodeInvertsDecode : Obligations.EncodeInvertsDecode := by
  rintro (_ | ⟨op, bytes⟩) rest i h
  · cases h
  · cases hf : formatOf op with
    | none => simp [decode, hf] at h
    | some f =>
      rw [decode_cons_of_formatOf hf] at h
      exact encode_of_takeOperands (encodes_of_formatOf hf) h

/-- Settles O1: each word is the encoding of its instruction. -/
theorem writtenWordsDecode : Obligations.WrittenWordsDecode :=
  ⟨decode_encode_append .hlt [], decode_encode_append .ret [], decode_encode_append (.prn 2#8) [],
    decode_encode_append (.push 3#8) [], decode_encode_append (.call 1#8) [],
    decode_encode_append (.ldi 5#8 0xAB#8) [], decode_encode_append (.add 1#8 2#8) [],
    decode_encode_append (.cmp 6#8 7#8) []⟩

/-! ## The bits of an opcode (30_encoding.md R67) -/

theorem opcode_length_bits (i : Instr) : (i.opcode >>> 6).toNat + 1 = i.length := by
  cases i <;> simp [Instr.opcode, Instr.length]

theorem opcode_bit5_iff (i : Instr) :
    i.opcode.getLsbD 5 = true ↔ (∃ a b, i = .add a b) ∨ (∃ a b, i = .mul a b) ∨ (∃ a b, i = .cmp a b) := by
  cases i <;> simp [Instr.opcode]

theorem opcode_bit4_iff (i : Instr) :
    i.opcode.getLsbD 4 = true ↔
      i = .ret ∨ (∃ a, i = .call a) ∨ (∃ a, i = .jmp a) ∨ (∃ a, i = .jeq a) ∨ (∃ a, i = .jne a) := by
  cases i <;> simp [Instr.opcode]

/-- Settles O4: the bit clauses hold row by row, and an opcode of no instruction finds no row. -/
theorem opcodeBitsAreConsistent : Obligations.OpcodeBitsAreConsistent :=
  ⟨fun i => ⟨opcode_length_bits i, opcode_bit5_iff i, opcode_bit4_iff i⟩,
    fun _ rest h => decode_cons_of_illegal h rest⟩

end Sys2Proof
end

section
/-!
PROOFS about the fetch under both policies (30_encoding.md R68, R69, R79, R80) and the step of a Running core that rests on
it (R70, R77).
-/

namespace Sys2Proof.Machine

variable {s : State} {p : Nat} {i : Instr}

/-! ## The bytes a fetch needs -/

theorem length_encode (i : Instr) : (encode i).length = i.length := by
  cases i <;> rfl

theorem instr_length_le (i : Instr) : i.length ≤ 3 := by
  cases i <;> simp [Instr.length]

/-- The fetch gives an instruction exactly where its own bytes stand in memory. -/
theorem fetchBoundsAware_eq_ok_iff : fetchBoundsAware p s = .ok i ↔ bytesFrom s p i.length = encode i := by
  refine ⟨fun h => ?_, fetchBoundsAware_of_encoded⟩
  have hfits : p + i.length ≤ 256 := fetchAt_fits (pol := .boundsAware) h
  rw [fetchBoundsAware_eq_decode] at h
  split at h
  · rename_i j rest hd
    cases h
    have hbytes := encodeInvertsDecode _ _ _ hd
    rw [← Nat.add_sub_cancel' (instr_length_le i), bytesFrom_add] at hbytes
    refine (List.append_inj hbytes ?_).1
    rw [length_bytesFrom, length_encode]
    omega
  · cases h

theorem bytesFrom_congr {s' : State} {n : Nat} (h : ∀ k, k < n → s'.mem.read (p + k) = s.mem.read (p + k)) :
    bytesFrom s' p n = bytesFrom s p n := by
  induction n generalizing p with
  | zero => rfl
  | succ n ih =>
    have htail : bytesFrom s' (p + 1) n = bytesFrom s (p + 1) n :=
      ih fun k hk => by simpa [Nat.add_right_comm, Nat.add_assoc] using h (k + 1) (by omega)
    have hhead : s'.mem.read p = s.mem.read p := h 0 n.succ_pos
    rw [bytesFrom, bytesFrom, htail, hhead]

/-- Settles O7: the same bytes stand there in the other memory. -/
theorem fetchReadsOwnBytesOnly : Obligations.FetchReadsOwnBytesOnly := by
  intro s m p i h hsame
  have hbytes : bytesFrom s p i.length = encode i := fetchBoundsAware_eq_ok_iff.mp h
  exact fetchBoundsAware_of_encoded ((bytesFrom_congr hsame).trans hbytes)

/-! ## Where a fetch faults -/

/-- Where the bytes end inside an instruction, the fault is at the first address behind them. -/
theorem decode_of_truncated {bytes : List Byte} (h : bytes.length + 1 < i.length) :
    ∃ e, decode (i.opcode :: bytes) = .error e ∧
      ∀ p, fetchCause p e = .outOfBounds ((p + (i.opcode :: bytes).length : Nat) : Int) := by
  cases i with
  | hlt | ret => simp [Instr.length] at h
  | prn a | push a | pop a | call a | jmp a | jeq a | jne a =>
    obtain rfl : bytes = [] := by simpa [Instr.length] using h
    exact ⟨_, rfl, fun _ => rfl⟩
  | ldi a b | add a b | mul a b | cmp a b =>
    rcases bytes with _ | ⟨x, _ | ⟨y, bytes⟩⟩
    · exact ⟨_, rfl, fun _ => rfl⟩
    · exact ⟨_, rfl, fun _ => rfl⟩
    · simp only [Instr.length, List.length_cons] at h
      omega

theorem fetchBoundsAware_of_truncated (hp : p < 256) (hop : i.opcode = s.mem.read p) (hlong : 256 < p + i.length) :
    fetchBoundsAware p s = .error (.outOfBounds 256) := by
  have hlen : (bytesFrom s p 3).length = 256 - p := by
    have := instr_length_le i
    rw [length_bytesFrom]
    omega
  rw [bytesFrom_succ_of_lt s p 2 hp, ← hop] at hlen
  obtain ⟨e, hd, hcause⟩ := decode_of_truncated (i := i) (bytes := bytesFrom s (p + 1) 2) (by
    rw [List.length_cons] at hlen
    omega)
  rw [fetchBoundsAware_eq_decode, bytesFrom_succ_of_lt s p 2 hp, ← hop, hd]
  show Except.error (fetchCause p e) = _
  rw [hcause, hlen, Nat.add_sub_cancel' hp.le]
  rfl

theorem fetchBoundsAware_at_end (s : State) : fetchBoundsAware 256 s = .error (.outOfBounds 256) := by
  rw [fetchBoundsAware_eq_decode, bytesFrom_of_ge s 256 3 le_rfl]
  rfl

/-- Settles O5: a lemma for each of the four clauses. -/
theorem boundsAwareFetch : Obligations.BoundsAwareFetch := by
  intro s p
  refine ⟨?_, fetchBoundsAware_of_illegal, fun _ => fetchBoundsAware_of_encoded,
    fun _ => fetchBoundsAware_of_truncated⟩
  rintro rfl
  exact fetchBoundsAware_at_end s

/-- Settles O6: up to 253 three bytes fit; from 254 to 256 they don't, and the fault is at 256. -/
theorem strictThreeFetch : Obligations.StrictThreeFetch := by
  intro s p
  constructor
  · rintro (hp | rfl)
    · exact fetchStrictThree_of_fits (by omega) s
    · exact (fetchStrictThree_of_not_fits (by omega) s).trans (fetchBoundsAware_at_end s).symm
  · rintro (rfl | rfl) <;> exact fetchStrictThree_of_not_fits (by omega) s

/-! ## The step of a Running core -/

theorem stepWith_of_fetch_error {c : Config} {f : FaultCause} (hx : Executing s)
    (hf : fetch c.fetchPolicy s = .error f) : stepWith c s = .next (faultEntry f s.beginStep) := by
  rw [stepWith_of_running c hx.2 hx.1, runInstruction, fetch_beginStep, hf]

theorem opcode_mem_opcodes (i : Instr) : i.opcode ∈ opcodeTable.map Prod.fst := by
  cases i <;> simp [opcodeTable, Instr.opcode]

/-- Settles O9: the fetch raises IllegalInstruction, since every instruction's opcode is one of the 13. -/
theorem illegalOpcodeFaults : Obligations.IllegalOpcodeFaults := by
  intro s hx hp hop
  refine stepWith_of_fetch_error hx (fetchBoundsAware_of_illegal hp fun i hi => hop ?_)
  rw [← hi]
  exact opcode_mem_opcodes i

/-- Settles O8: the fetch at pc is the decoder on the bytes from pc up. -/
theorem stepRunsDecodedInstruction : Obligations.StepRunsDecodedInstruction := by
  intro s i rest hx hd
  have hf : fetchBoundsAware s.pc.toNat s = .ok i := by rw [fetchBoundsAware_eq_decode, hd]
  exact stepWith_of_fetched (c := Config.spec) hx hf

theorem runInstruction_next (pol : FetchPolicy) (s : State) : ∃ t, runInstruction pol s = .next t := by
  cases hf : fetch pol s with
  | error f => exact ⟨_, by rw [runInstruction, hf]⟩
  | ok i =>
    obtain ⟨t, ht, -⟩ := exec_next i s
    exact ⟨t, by simpa [runInstruction, hf] using ht⟩

/-- Settles O48: with rst the step is the reset, and in each run state its equation answers a next state. -/
theorem stepAlwaysAnswersNext : Obligations.StepAlwaysAnswersNext := by
  intro c s
  cases hrst : s.input.rst with
  | true => exact ⟨afterRst c s, by simp [stepWith, cycle, hrst]⟩
  | false =>
    cases hs : s.run with
    | idle => exact ⟨_, stepWith_of_idle c hrst hs⟩
    | running =>
      rw [stepWith_of_running c hrst hs]
      exact runInstruction_next _ _
    | halted => exact ⟨_, stepWith_of_halted_or_faulted c hrst (.inl hs)⟩
    | faulted => exact ⟨_, stepWith_of_halted_or_faulted c hrst (.inr hs)⟩

/-! ## Well-formed instructions -/

theorem toNat_lt_of_namesRegister {a : Byte} (h : namesRegister a = true) : a.toNat < 8 := of_decide_eq_true h

theorem raises_code_of_wellFormed {c : FaultCause} (hwf : i.wellFormed = true) (h : Raises i s c) : c.code = 1#3 := by
  cases i with
  | hlt => exact h.elim
  | ret =>
    obtain ⟨-, rfl⟩ := h
    rfl
  | prn a | ldi a b | jmp a =>
    have ha := toNat_lt_of_namesRegister hwf
    obtain ⟨hge, -⟩ := h
    omega
  | jeq a | jne a =>
    have ha := toNat_lt_of_namesRegister hwf
    obtain ⟨-, hge, -⟩ := h
    omega
  | push a =>
    have ha := toNat_lt_of_namesRegister hwf
    obtain ⟨hge, -⟩ | ⟨-, -, rfl⟩ := h
    · omega
    · rfl
  | pop a =>
    have ha := toNat_lt_of_namesRegister hwf
    obtain ⟨-, rfl⟩ | ⟨-, hge, -⟩ := h
    · rfl
    · omega
  | call a =>
    have ha := toNat_lt_of_namesRegister hwf
    obtain ⟨-, rfl⟩ | ⟨-, -, rfl⟩ | ⟨-, -, hge, -⟩ := h
    · rfl
    · rfl
    · omega
  | add a b | mul a b | cmp a b =>
    obtain ⟨ha, hb⟩ := Bool.and_eq_true_iff.mp hwf
    have ha := toNat_lt_of_namesRegister ha
    have hb := toNat_lt_of_namesRegister hb
    obtain ⟨hge, -⟩ | ⟨-, hge, -⟩ := h <;> omega

/-- Settles O39: one that ends Faulted has not completed, so it raised a cause, and that is OutOfBounds. -/
theorem wellFormedNeverInvalidRegister : Obligations.WellFormedNeverInvalidRegister := by
  intro i s t hwf hrun h ht
  obtain hc | ⟨c, hr, rfl⟩ := exec_cases h
  · exact absurd ht (completed_run_ne_faulted hc (by simp [hrun]))
  · exact raises_code_of_wellFormed hwf hr

end Sys2Proof.Machine
end

section
/-!
PROOFS that the second descriptions of 30_encoding.md agree with the step: the datapath driven by the decoder's outputs
(R82 to R86) and the phases inside an instruction (R78).
-/

namespace Sys2Proof.Machine

variable {s t : State} {i : Instr} {op : Byte} {k : Control}

/-! ## The decoder's outputs -/

theorem controlOf_opcode (i : Instr) : ∃ k, controlOf i.opcode = some k ∧ k.length = i.length := by
  cases i <;> exact ⟨_, rfl, rfl⟩

theorem mem_of_findControl {rows : List (Byte × Control)} (h : findControl op rows = some k) : (op, k) ∈ rows := by
  induction rows with
  | nil => simp [findControl] at h
  | cons row rows ih =>
    obtain ⟨b, k'⟩ := row
    simp only [findControl] at h
    split at h
    next hb =>
      subst hb
      cases h
      exact List.mem_cons_self
    next => exact List.mem_cons_of_mem _ (ih h)

theorem formatOf_isSome_of_controlOf (h : controlOf op = some k) : (formatOf op).isSome = true := by
  have hrows : ∀ row ∈ controlTable, (formatOf row.1).isSome = true := by decide
  exact hrows _ (mem_of_findControl h)

/-- The output `illegal` (30_encoding.md R82): the two tables list the same opcodes. -/
theorem controlOf_eq_none_iff : controlOf op = none ↔ ∀ i : Instr, i.opcode ≠ op := by
  constructor
  · rintro hnone i rfl
    obtain ⟨k, hk, -⟩ := controlOf_opcode i
    cases hnone.symm.trans hk
  · intro h
    cases hk : controlOf op with
    | none => rfl
    | some k => simpa [formatOf_eq_none h] using formatOf_isSome_of_controlOf hk

/-! ## The units of the datapath -/

@[simp] theorem portRead_disabled (a : Byte) (s : State) : portRead false a s = .ok none := rfl

theorem portRead_of_lt {a : Byte} (h : a.toNat < 8) (s : State) :
    portRead true a s = .ok (some (s.reg ⟨a.toNat, h⟩)) := by
  simp [portRead, regRead_of_lt h]

theorem portRead_of_ge {a : Byte} (h : 8 ≤ a.toNat) (s : State) :
    portRead true a s = .error (.invalidRegister a) := by
  simp [portRead, regRead_of_ge h]

/-- What the datapath ends with when no unit raises a fault: the new pc, and then the run state of the decoder's output. -/
theorem datapath_of_units_ok {a b : Byte} {x y popped late : Option Byte} {o : AluOut} {u w : State}
    (hreadA : portRead (k.readA.beforeStack s.e) a s = .ok x) (hreadB : portRead k.readB b s = .ok y)
    (halu : aluUnit k.aluTag x y = .ok o) (hstack : stackUnit k.stackOp x s = .ok (popped, u))
    (hlate : portRead (decide (k.readA = .afterPush)) a u = .ok late)
    (hwrite : writeResult a (k.writeA.value popped b o) u = .ok w)
    (hpc : pcLogic k (if k.readA = .afterPush then late else x) popped s.e
      (outputUnit k.unit (if k.readA = .afterPush then late else x)
        (if k.flagWrite then writeFlag o.flagUpdate w else w)) = t) :
    datapath k a b s = .ok (t.setRun k.run) := by
  subst hpc
  simp only [datapath, hreadA, hreadB, halu, hstack, hlate, hwrite, except_bind_ok]

theorem stackUnit_pop (hsp : s.sp ≠ 0xFF#8) (x : Option Byte) :
    stackUnit .pop x s = .ok (some (s.mem.read s.sp.toNat), s.setReg 7 (s.sp + 1#8)) := by
  simp [stackUnit, pop_below hsp]

theorem stackUnit_pushA (hsp : s.sp ≠ 0#8) (v : Byte) :
    stackUnit .pushA (some v) s =
      .ok (none, (s.setReg 7 (s.sp - 1#8)).setMem (s.mem.write (s.sp.toNat - 1) v)) := by
  simp [stackUnit, push_pos hsp]

theorem stackUnit_pushReturn (hfits : s.pc.toNat + 2 ≤ 255) (hsp : s.sp ≠ 0#8) (x : Option Byte) :
    stackUnit .pushReturn x s =
      .ok (none, (s.setReg 7 (s.sp - 1#8)).setMem (s.mem.write (s.sp.toNat - 1) (BitVec.ofNat 8 (s.pc.toNat + 2)))) := by
  simp [stackUnit, returnAddress_fits hfits, push_pos hsp]

/-! ## The datapath does what the instruction's rule says -/

theorem datapath_of_completed (hk : controlOf i.opcode = some k) (h : Completed i s t) :
    datapath k (i.operandBytes.getD 0 0#8) (i.operandBytes.getD 1 0#8) s = .ok (t.setRun k.run) := by
  cases i with
  | hlt =>
    cases hk
    subst h
    rfl
  | ret =>
    cases hk
    obtain ⟨hsp, rfl⟩ := h
    exact datapath_of_units_ok rfl rfl rfl (stackUnit_pop hsp _) rfl rfl rfl
  | prn a | jmp a =>
    cases hk
    obtain ⟨ha, rfl⟩ := h
    exact datapath_of_units_ok (portRead_of_lt ha s) rfl rfl rfl rfl rfl rfl
  | push a =>
    cases hk
    obtain ⟨ha, hsp, rfl⟩ := h
    exact datapath_of_units_ok (portRead_of_lt ha s) rfl rfl (stackUnit_pushA hsp _) rfl rfl rfl
  | pop a =>
    cases hk
    obtain ⟨ha, hsp, rfl⟩ := h
    exact datapath_of_units_ok rfl rfl rfl (stackUnit_pop hsp _) rfl (regWrite_of_lt ha _ _) rfl
  | call a =>
    cases hk
    obtain ⟨ha, hfits, hsp, rfl⟩ := h
    exact datapath_of_units_ok rfl rfl rfl (stackUnit_pushReturn hfits hsp _) (portRead_of_lt ha _) rfl rfl
  | ldi a imm =>
    cases hk
    obtain ⟨ha, rfl⟩ := h
    exact datapath_of_units_ok rfl rfl rfl rfl rfl (regWrite_of_lt ha _ _) rfl
  | add a b =>
    cases hk
    obtain ⟨ha, hb, rfl⟩ := h
    exact datapath_of_units_ok (portRead_of_lt ha s) (portRead_of_lt hb s) (alu_add _ _) rfl rfl
      (regWrite_of_lt ha _ _) rfl
  | mul a b =>
    cases hk
    obtain ⟨ha, hb, rfl⟩ := h
    exact datapath_of_units_ok (portRead_of_lt ha s) (portRead_of_lt hb s) (alu_multiply _ _) rfl rfl
      (regWrite_of_lt ha _ _) rfl
  | cmp a b =>
    cases hk
    obtain ⟨ha, hb, rfl⟩ := h
    exact datapath_of_units_ok (portRead_of_lt ha s) (portRead_of_lt hb s) (alu_compare _ _) rfl rfl rfl rfl
  | jeq a | jne a =>
    cases hk
    obtain ⟨he, rfl⟩ | ⟨he, ha, rfl⟩ := h
    · simp [datapath, ReadA.beforeStack, he, aluUnit, stackUnit, WriteA.value, writeResult, outputUnit, pcLogic]
    · simp [datapath, ReadA.beforeStack, he, portRead_of_lt ha, aluUnit, stackUnit, WriteA.value, writeResult,
        outputUnit, pcLogic, Instr.operandBytes]

/-- The datapath tries its units in the order of 60_exceptions.md R112. -/
theorem datapath_of_raises {c : FaultCause} (hk : controlOf i.opcode = some k) (h : Raises i s c) :
    datapath k (i.operandBytes.getD 0 0#8) (i.operandBytes.getD 1 0#8) s = .error c := by
  cases i with
  | hlt => exact h.elim
  | ret =>
    cases hk
    obtain ⟨htop, rfl⟩ := h
    simp [datapath, ReadA.beforeStack, aluUnit, stackUnit, pop_top htop]
  | prn a | jmp a =>
    cases hk
    obtain ⟨hge, rfl⟩ := h
    simp [datapath, ReadA.beforeStack, Instr.operandBytes, portRead_of_ge hge]
  | push a =>
    cases hk
    obtain ⟨hge, rfl⟩ | ⟨ha, h0, rfl⟩ := h
    · simp [datapath, ReadA.beforeStack, Instr.operandBytes, portRead_of_ge hge]
    · simp [datapath, ReadA.beforeStack, Instr.operandBytes, portRead_of_lt ha, aluUnit, stackUnit, push_zero h0]
  | pop a =>
    cases hk
    obtain ⟨htop, rfl⟩ | ⟨hsp, hge, rfl⟩ := h
    · simp [datapath, ReadA.beforeStack, aluUnit, stackUnit, pop_top htop]
    · simp [datapath, ReadA.beforeStack, Instr.operandBytes, aluUnit, stackUnit_pop hsp, WriteA.value, writeResult,
        regWrite_of_ge hge]
  | call a =>
    cases hk
    obtain ⟨hbig, rfl⟩ | ⟨hfits, h0, rfl⟩ | ⟨hfits, hsp, hge, rfl⟩ := h
    · simp [datapath, ReadA.beforeStack, aluUnit, stackUnit, returnAddress_big hbig]
    · simp [datapath, ReadA.beforeStack, aluUnit, stackUnit, returnAddress_fits hfits, push_zero h0]
    · simp [datapath, ReadA.beforeStack, Instr.operandBytes, aluUnit, stackUnit_pushReturn hfits hsp, portRead_of_ge hge]
  | ldi a imm =>
    cases hk
    obtain ⟨hge, rfl⟩ := h
    simp [datapath, ReadA.beforeStack, Instr.operandBytes, aluUnit, stackUnit, WriteA.value, writeResult, regWrite_of_ge hge]
  | add a b | mul a b | cmp a b =>
    cases hk
    obtain ⟨hge, rfl⟩ | ⟨ha, hge, rfl⟩ := h
    · simp [datapath, ReadA.beforeStack, Instr.operandBytes, portRead_of_ge hge]
    · simp [datapath, ReadA.beforeStack, Instr.operandBytes, portRead_of_lt ha, portRead_of_ge hge]
  | jeq a | jne a =>
    cases hk
    obtain ⟨he, hge, rfl⟩ := h
    simp [datapath, ReadA.beforeStack, he, Instr.operandBytes, portRead_of_ge hge]

theorem run_of_controlOf (hk : controlOf i.opcode = some k) : k.run = if i = .hlt then .halted else .running := by
  cases i <;> cases hk <;> rfl

/-- Settles O55: an instruction completes or raises a cause, and the datapath does the same. -/
theorem datapathAgreesWithRules : Obligations.DatapathAgreesWithRules := by
  refine ⟨fun i s hrun => ?_, fun op => controlOf_eq_none_iff⟩
  obtain ⟨k, hk, hlen⟩ := controlOf_opcode i
  refine ⟨k, hk, hlen, ?_⟩
  obtain ⟨t, ht, hc | ⟨c, hr, rfl⟩⟩ := exec_next i s
  · have hkrun : k.run = t.run := by rw [run_of_controlOf hk, (completed_frame hc).run, hrun]
    rw [datapath_of_completed hk hc, hkrun, ht]
    rfl
  · rw [datapath_of_raises hk hr, ht]
    rfl

/-! ## The phases refine the step (30_encoding.md R78) -/

theorem afterRead_ok {x : Int} {v : Byte} (h : memRead x s = .ok v) (f : Byte → Phase) : afterRead s x f = f v := by
  simp only [afterRead, h]

theorem afterRead_error {x : Int} {c : FaultCause} (h : memRead x s = .error c) (f : Byte → Phase) :
    afterRead s x f = .done (.next (faultEntry c s)) := by
  simp only [afterRead, h]

theorem runPhases_done (s : State) (n : Nat) (o : Outcome) : runPhases s n (.done o) = .done o := by
  induction n with
  | zero => rfl
  | succ n ih => exact ih

theorem runPhases_add (s : State) (m n : Nat) (ph : Phase) :
    runPhases s (m + n) ph = runPhases s n (runPhases s m ph) := by
  induction m generalizing ph with
  | zero => rw [Nat.zero_add, runPhases]
  | succ m ih => rw [Nat.succ_add, runPhases, runPhases, ih]

/-- The phases that suffice, by what the fetch answers: two around the bytes of an instruction, and five in any case. -/
def phaseCount : Except FaultCause Instr → Nat
  | .ok i => i.length + 2
  | .error _ => 5

theorem phaseCount_le (r : Except FaultCause Instr) : phaseCount r ≤ 5 := by
  cases r with
  | ok i => exact Nat.add_le_add_right (instr_length_le i) 2
  | error c => exact le_rfl

theorem runPhases_phaseCount (s : State) :
    runPhases s (phaseCount (fetch .boundsAware s)) .fetchOp = .done (runInstruction .boundsAware s) := by
  simp only [runInstruction, fetch, fetchAt, fetchBoundsAware]
  cases h0 : memRead s.pc.toNat s with
  | error c => simp [phaseCount, runPhases, phaseStep, afterRead_error h0]
  | ok op =>
    cases hf : formatOf op with
    | none => simp [phaseCount, runPhases, phaseStep, afterRead_ok h0, hf]
    | some f =>
      have hlen := makesLength_of_formatOf hf
      cases f with
      | f1 j =>
        have hj : j.length = 1 := hlen
        simp [hf, phaseCount, hj, runPhases, phaseStep, afterRead_ok h0]
      | f2 mk =>
        cases h1 : memRead (s.pc.toNat + 1) s with
        | error c => simp [phaseCount, runPhases, phaseStep, afterRead_ok h0, hf, afterRead_error h1]
        | ok a => simp [phaseCount, hlen a, runPhases, phaseStep, afterRead_ok h0, hf, afterRead_ok h1]
      | f3RI mk | f3RR mk =>
        cases h1 : memRead (s.pc.toNat + 1) s with
        | error c => simp [phaseCount, runPhases, phaseStep, afterRead_ok h0, hf, afterRead_error h1]
        | ok a =>
          cases h2 : memRead (s.pc.toNat + 2) s with
          | error c => simp [phaseCount, runPhases, phaseStep, afterRead_ok h0, hf, afterRead_ok h1, afterRead_error h2]
          | ok b => simp [phaseCount, hlen a b, runPhases, phaseStep, afterRead_ok h0, hf, afterRead_ok h1, afterRead_ok h2]

/-- Settles O56: the phases that suffice end the instruction, and those behind them change nothing. -/
theorem phasesRefineStep : Obligations.PhasesRefineStep := by
  intro s
  have hdone := runPhases_phaseCount s
  constructor
  · rw [← Nat.add_sub_cancel' (phaseCount_le (fetch .boundsAware s)), runPhases_add, hdone, runPhases_done]
  · intro i hf
    rw [runInstruction, hf] at hdone
    exact hdone

end Sys2Proof.Machine
end

section
/-!
PROOFS about HLT and PRN (40_system.md R87, R88), and the frame of the instructions with no destination: these two, CMP and
the jumps.
-/

namespace Sys2Proof.Machine

variable {s t : State} {i : Instr}

/-- Settles O10: HLT has one way to end, its completed effect. -/
theorem hltHalts : Obligations.HltHalts :=
  ⟨rfl, fun _ => ⟨exec_of_completed (i := .hlt) rfl, rfl⟩⟩

/-- Settles O11: PRN completes for a register below 8 and raises InvalidRegister from there on. -/
theorem prnEmitsRegister : Obligations.PrnEmitsRegister :=
  ⟨fun _ => rfl, fun a _ =>
    ⟨fun h => exec_of_completed (i := .prn a) ⟨h, rfl⟩, fun h => exec_of_raises (i := .prn a) ⟨h, rfl⟩⟩⟩

/-! ## What an instruction without a destination changes -/

theorem SameControl.refl (s : State) : SameControl s s := ⟨rfl, rfl, rfl, rfl, rfl, rfl, rfl⟩

theorem SameControl.setPc (h : SameControl s t) (v : PcWord) : SameControl s (t.setPc v) := { h with }

theorem SameControl.setE (h : SameControl s t) (v : Bool) : SameControl s (t.setE v) := { h with }

/-- A jump that completes wrote pc alone, taken or not. -/
theorem completed_jump (hi : (∃ a, i = .jmp a) ∨ (∃ a, i = .jeq a) ∨ ∃ a, i = .jne a) (h : Completed i s t) :
    ∃ v, t = s.setPc v := by
  obtain ⟨a, rfl⟩ | ⟨a, rfl⟩ | ⟨a, rfl⟩ := hi
  · obtain ⟨_, rfl⟩ := h
    exact ⟨_, rfl⟩
  · obtain ⟨-, rfl⟩ | ⟨-, _, rfl⟩ := h <;> exact ⟨_, rfl⟩
  · obtain ⟨-, rfl⟩ | ⟨-, _, rfl⟩ := h <;> exact ⟨_, rfl⟩

/-- Settles O24: beside pc a completed one wrote the run state (HLT), the output (PRN), E (CMP) or nothing (a jump), and a
faulted one wrote nothing. -/
theorem noDestinationFrame : Obligations.NoDestinationFrame := by
  intro i s t hi h
  have hctl := SameControl.refl s
  obtain hc | ⟨c, -, rfl⟩ := exec_cases h
  · obtain rfl | ⟨a, rfl⟩ | ⟨a, b, rfl⟩ | hjump := hi
    · cases hc
      exact ⟨rfl, fun _ => rfl, fun _ => rfl, .inr (.inl ⟨rfl, rfl, hctl.setPc _⟩)⟩
    · obtain ⟨ha, rfl⟩ := hc
      exact ⟨rfl, fun _ => rfl, fun _ => rfl, .inr (.inr (.inl ⟨a, _, rfl, rfl, rfl, hctl.setPc _⟩))⟩
    · obtain ⟨ha, hb, rfl⟩ := hc
      exact ⟨rfl, fun _ => rfl, fun hne => absurd rfl (hne a b), .inl ((hctl.setE _).setPc _)⟩
    · obtain ⟨v, rfl⟩ := completed_jump hjump hc
      exact ⟨rfl, fun _ => rfl, fun _ => rfl, .inl (hctl.setPc v)⟩
  · exact ⟨rfl, fun _ => rfl, fun _ => rfl, .inr (.inr (.inr ⟨c, rfl⟩))⟩

end Sys2Proof.Machine
end

section
/-!
PROOFS about LDI, the ALU and its instructions (41_register_alu.md R89 to R95), and the frame of those with a destination
register: LDI, ADD and MUL.
-/

namespace Sys2Proof.Machine

variable {s t : State} {i : Instr} {a b : Byte}

/-! ## The ALU (41_register_alu.md R89, R90) -/

/-- The spec's exact sum, reduced modulo 256, is the sum of bytes. -/
theorem ofNat_add_mod_eq_add (x y : Byte) : BitVec.ofNat 8 ((x.toNat + y.toNat) % 256) = x + y :=
  BitVec.eq_of_toNat_eq (by simp)

/-- The spec's exact product, reduced modulo 256, is the product of bytes. -/
theorem ofNat_mul_mod_eq_mul (x y : Byte) : BitVec.ofNat 8 ((x.toNat * y.toNat) % 256) = x * y :=
  BitVec.eq_of_toNat_eq (by simp)

/-- Settles O33: tags 0 to 2 are those of ADD, MULTIPLY and COMPARE, and 3 is none of them. -/
theorem aluComputes : Obligations.AluComputes := by
  intro x y
  rw [ofNat_add_mod_eq_add, ofNat_mul_mod_eq_mul]
  exact ⟨alu_add x y, alu_multiply x y, alu_compare x y, rfl⟩

/-! ## What each instruction does (41_register_alu.md R92 to R95) -/

/-- Settles O12: LDI completes for a register below 8 and raises InvalidRegister from there on. -/
theorem ldiLoadsImmediate : Obligations.LdiLoadsImmediate :=
  ⟨fun _ _ => rfl, fun a imm _ =>
    ⟨fun h => exec_of_completed (i := .ldi a imm) ⟨h, rfl⟩, fun h => exec_of_raises (i := .ldi a imm) ⟨h, rfl⟩⟩⟩

/-- The instructions that read two registers check operand a first. -/
theorem exec_twoRegisters_faults (hi : i = .add a b ∨ i = .mul a b ∨ i = .cmp a b) (s : State) :
    (8 ≤ a.toNat → exec i s = .next (faultEntry (.invalidRegister a) s)) ∧
    (a.toNat < 8 → 8 ≤ b.toNat → exec i s = .next (faultEntry (.invalidRegister b) s)) := by
  obtain rfl | rfl | rfl := hi <;>
    exact ⟨fun ha => exec_of_raises (.inl ⟨ha, rfl⟩), fun ha hb => exec_of_raises (.inr ⟨ha, hb, rfl⟩)⟩

/-- Settles O13: with both operands below 8 ADD completes with the sum of bytes, otherwise an operand's check faults. -/
theorem addWritesSumModulo256 : Obligations.AddWritesSumModulo256 := by
  refine ⟨fun _ _ => rfl, fun a b s => ⟨fun ha hb => ?_, exec_twoRegisters_faults (.inl rfl) s⟩⟩
  rw [ofNat_add_mod_eq_add]
  exact exec_of_completed (i := .add a b) ⟨ha, hb, rfl⟩

/-- Settles O14: with both operands below 8 MUL completes with the product of bytes, otherwise an operand's check faults. -/
theorem mulWritesProductModulo256 : Obligations.MulWritesProductModulo256 := by
  refine ⟨fun _ _ => rfl, fun a b s => ⟨fun ha hb => ?_, exec_twoRegisters_faults (.inr (.inl rfl)) s⟩⟩
  rw [ofNat_mul_mod_eq_mul]
  exact exec_of_completed (i := .mul a b) ⟨ha, hb, rfl⟩

/-- Settles O15: with both operands below 8 CMP completes and writes E, otherwise an operand's check faults. -/
theorem cmpSetsEqualFlag : Obligations.CmpSetsEqualFlag :=
  ⟨fun _ _ => rfl, fun a b s =>
    ⟨fun ha hb => exec_of_completed (i := .cmp a b) ⟨ha, hb, rfl⟩, exec_twoRegisters_faults (.inr (.inr rfl)) s⟩⟩

/-! ## What LDI, ADD and MUL change (41_register_alu.md R91) -/

theorem SameControl.setReg (h : SameControl s t) (r : Fin 8) (v : Byte) : SameControl s (t.setReg r v) := { h with }

/-- An LDI, ADD or MUL that completes wrote its destination register, and pc. -/
theorem completed_registerDestination (hi : i = .ldi a b ∨ i = .add a b ∨ i = .mul a b) (h : Completed i s t) :
    ∃ (ha : a.toNat < 8) (v : Byte), t = (s.setReg ⟨a.toNat, ha⟩ v).advance 3 := by
  obtain rfl | rfl | rfl := hi
  · obtain ⟨ha, rfl⟩ := h
    exact ⟨ha, _, rfl⟩
  · obtain ⟨ha, -, rfl⟩ := h
    exact ⟨ha, _, rfl⟩
  · obtain ⟨ha, -, rfl⟩ := h
    exact ⟨ha, _, rfl⟩

/-- Settles O23: a completed one wrote register a and pc alone, a faulted one wrote nothing. -/
theorem registerDestinationFrame : Obligations.RegisterDestinationFrame := by
  intro i a b s t hi h
  obtain hc | ⟨c, -, rfl⟩ := exec_cases h
  · obtain ⟨ha, v, rfl⟩ := completed_registerDestination hi hc
    refine ⟨fun r hr => ?_, rfl, fun _ => rfl, .inl (((SameControl.refl s).setReg _ v).setPc _)⟩
    rw [advance_reg, setReg_reg_ne _ _ r _ (Fin.ne_of_val_ne hr)]
  · exact ⟨fun _ _ => rfl, rfl, fun _ => rfl, .inr ⟨c, rfl⟩⟩

end Sys2Proof.Machine
end

section
/-!
PROOFS about PUSH and POP (42_stack.md R96, R97): every operand and every SP falls under one way to complete or one fault.
-/

namespace Sys2Proof.Machine

/-- Settles O16: PUSH checks its register first and SP second, and completes when both pass. -/
theorem pushStoresBelowStackPointer : Obligations.PushStoresBelowStackPointer := by
  refine ⟨fun _ => rfl, fun a s => ⟨fun ha hsp => ?completes, fun ha => ?badRegister, fun ha hsp => ?stackFull⟩⟩
  case completes => exact exec_of_completed (i := .push a) ⟨ha, hsp, rfl⟩
  case badRegister => exact exec_of_raises (i := .push a) (.inl ⟨ha, rfl⟩)
  case stackFull => exact exec_of_raises (i := .push a) (.inr ⟨ha, hsp, rfl⟩)

/-- Settles O17: POP checks SP first and its register second, and completes when both pass. -/
theorem popLoadsFromStackPointer : Obligations.PopLoadsFromStackPointer := by
  refine ⟨fun _ => rfl, fun a s => ⟨fun ha hsp => ?completes, fun hsp => ?stackEnd, fun hsp ha => ?badRegister⟩⟩
  case completes => exact exec_of_completed (i := .pop a) ⟨ha, hsp, rfl⟩
  case stackEnd => exact exec_of_raises (i := .pop a) (.inl ⟨hsp, rfl⟩)
  case badRegister => exact exec_of_raises (i := .pop a) (.inr ⟨hsp, ha, rfl⟩)

end Sys2Proof.Machine
end

section
/-!
PROOFS about CALL, RET and the jumps (43_control_transfer.md R98 to R103): each has one way to complete and its faults, and a RET
undoes what a CALL did to SP (R100).
-/

namespace Sys2Proof.Machine

variable {s t : State} {a : Byte}

/-! ## What each instruction does -/

/-- Settles O18: CALL checks the return address, then SP, then its register, and completes when all three pass. -/
theorem callPushesReturnAddress : Obligations.CallPushesReturnAddress := by
  refine ⟨fun _ => rfl, fun a s =>
    ⟨fun ha hfits hsp => ?completes, fun hbig => ?noReturnAddress, fun hfits hsp => ?stackFull,
      fun hfits hsp ha => ?badRegister⟩⟩
  case completes => exact exec_of_completed (i := .call a) ⟨ha, hfits, hsp, rfl⟩
  case noReturnAddress => exact exec_of_raises (i := .call a) (.inl ⟨hbig, rfl⟩)
  case stackFull => exact exec_of_raises (i := .call a) (.inr (.inl ⟨hfits, hsp, rfl⟩))
  case badRegister => exact exec_of_raises (i := .call a) (.inr (.inr ⟨hfits, hsp, ha, rfl⟩))

/-- Settles O19: RET checks SP alone. -/
theorem retPopsProgramCounter : Obligations.RetPopsProgramCounter :=
  ⟨rfl, fun _ =>
    ⟨fun hsp => exec_of_completed (i := .ret) ⟨hsp, rfl⟩, fun hsp => exec_of_raises (i := .ret) ⟨hsp, rfl⟩⟩⟩

/-- Settles O20: JMP completes for a register below 8 and raises InvalidRegister from there on. -/
theorem jmpLoadsProgramCounter : Obligations.JmpLoadsProgramCounter :=
  ⟨fun _ => rfl, fun a _ =>
    ⟨fun ha => exec_of_completed (i := .jmp a) ⟨ha, rfl⟩, fun ha => exec_of_raises (i := .jmp a) ⟨ha, rfl⟩⟩⟩

/-- Settles O21: the register is checked on E = 1 only. -/
theorem jeqJumpsIfEqual : Obligations.JeqJumpsIfEqual := by
  refine ⟨fun _ => rfl, fun a s => ⟨fun ha he => ?taken, fun he => ?untaken, fun he ha => ?badRegister⟩⟩
  case taken => exact exec_of_completed (i := .jeq a) (.inr ⟨he, ha, rfl⟩)
  case untaken => exact exec_of_completed (i := .jeq a) (.inl ⟨he, rfl⟩)
  case badRegister => exact exec_of_raises (i := .jeq a) ⟨he, ha, rfl⟩

/-- Settles O22: the register is checked on E = 0 only. -/
theorem jneJumpsIfNotEqual : Obligations.JneJumpsIfNotEqual := by
  refine ⟨fun _ => rfl, fun a s => ⟨fun ha he => ?taken, fun he => ?untaken, fun he ha => ?badRegister⟩⟩
  case taken => exact exec_of_completed (i := .jne a) (.inr ⟨he, ha, rfl⟩)
  case untaken => exact exec_of_completed (i := .jne a) (.inl ⟨he, rfl⟩)
  case badRegister => exact exec_of_raises (i := .jne a) ⟨he, ha, rfl⟩

/-! ## Subroutine linkage (43_control_transfer.md R100) -/

/-- What a completed CALL leaves for the RET: SP one lower, so not 0xFF, and the return address in the byte it names. -/
theorem completed_call_stack (hwf : s.mem.wf = true) (h : Completed (.call a) s t) :
    t.sp ≠ 0xFF#8 ∧ t.sp + 1#8 = s.sp ∧ (byteToPc (t.mem.read t.sp.toNat)).toNat = s.pc.toNat + 2 := by
  obtain ⟨_, hfits, hsp, rfl⟩ := h
  rw [setPc_sp, setMem_sp, setReg_sp, setPc_mem, setMem_mem, toNat_sub_one hsp, Memory.read_write_same _ _ _ hwf,
    byteToPc_toNat, BitVec.toNat_ofNat]
  exact ⟨by bv_omega, BitVec.sub_add_cancel _ _, Nat.mod_eq_of_lt (by omega)⟩

theorem completed_call_pc (ha : a.toNat < 8) (h : Completed (.call a) s t) : t.pc = byteToPc (t.reg ⟨a.toNat, ha⟩) := by
  obtain ⟨_, -, -, rfl⟩ := h
  rfl

theorem completed_call_reg (h : Completed (.call a) s t) {r : Fin 8} (hr : r ≠ 7) : t.reg r = s.reg r := by
  obtain ⟨_, -, -, rfl⟩ := h
  exact setReg_reg_ne s 7 r _ hr

/-- Settles O32: the CALL has completed, so the RET finds the return address at an SP that it can raise. -/
theorem callThenRetResumes : Obligations.CallThenRetResumes := by
  intro a ha s t u hwf _ h htrun hsp hbyte
  obtain hc | ⟨c, -, rfl⟩ := exec_cases h
  · obtain ⟨htop, hback, hret⟩ := completed_call_stack hwf hc
    have husp : u.sp = t.sp := hsp
    have hpc := completed_call_pc ha hc
    refine ⟨hpc, fun hne => ?_, fun r hr => completed_call_reg hc hr,
      _, exec_of_completed (i := .ret) ⟨husp ▸ htop, rfl⟩, ?_, ?_, fun r hr => setReg_reg_ne u 7 r _ hr⟩
    · have hval : a.toNat ≠ 7 := by bv_omega
      rw [hpc, completed_call_reg hc (Fin.ne_of_val_ne hval)]
      rfl
    · exact (congrArg (fun v => (byteToPc v).toNat) hbyte).trans hret
    · rw [setPc_reg, setReg_reg_same, husp]
      exact hback
  · cases htrun

end Sys2Proof.Machine
end

section
/-!
PROOFS about faults (60_exceptions.md): what a fault entry writes, that faults are precise, which instruction raises which cause,
that no step raises UnsupportedOperation, and that the terminal run states keep the state.
-/

namespace Sys2Proof.Machine

variable {s t : State} {i : Instr} {c : FaultCause}

/-! ## Fault entry (60_exceptions.md R104, R111) -/

@[simp] theorem faultEntry_faultedPort (c : FaultCause) (s : State) : (faultEntry c s).faultedPort = true :=
  decide_eq_true (faultEntry_run s c)

/-- Settles O34: each cause's fault entry is the record update of R111. -/
theorem faultEntryWritesRecord : Obligations.FaultEntryWritesRecord := fun s =>
  ⟨fun _ => rfl, fun _ => rfl, fun _ => rfl, fun _ => rfl, fun c => faultEntry_faultedPort c s, rfl, rfl⟩

/-! ## Faults are precise (60_exceptions.md R110) -/

/-- Settles O35: a step that ends Faulted is a fault entry on the state the step began with. -/
theorem faultsArePrecise : Obligations.FaultsArePrecise := by
  intro c s t hx h ht
  obtain ⟨f, rfl, -⟩ := fault_of_executing_step hx h ht
  exact ⟨⟨f, rfl⟩, rfl, rfl, rfl, rfl, rfl, rfl⟩

/-! ## Which instruction raises which fault (60_exceptions.md R105, R107) -/

/-- A Running core's instruction that ends Faulted raised the fault it took. -/
theorem raises_of_exec_faulted (hrun : s.run = .running) (h : exec i s = .next t) (ht : t.run = .faulted) :
    ∃ c, Raises i s c ∧ t = faultEntry c s := by
  obtain hc | hraised := exec_cases h
  · exact absurd ht (completed_run_ne_faulted hc (by simp [hrun]))
  · exact hraised

/-- The addresses outside memory that an instruction can form: below a push, at a CALL's return address, above a pop (R105). -/
def FormsOutside (i : Instr) (s : State) (x : Int) : Prop :=
  match i with
  | .push _ => s.sp = 0#8 ∧ x = -1
  | .call _ => (255 < s.pc.toNat + 2 ∧ x = (s.pc.toNat + 2 : Nat)) ∨ (s.sp = 0#8 ∧ x = -1)
  | .pop _ | .ret => s.sp = 0xFF#8 ∧ x = 256
  | _ => False

/-- The register operands that an instruction reads or writes (R107); a conditional jump only when it is taken. -/
def UsesRegister (i : Instr) (s : State) (r : Byte) : Prop :=
  match i with
  | .hlt | .ret => False
  | .prn a | .push a | .pop a | .call a | .jmp a | .ldi a _ => a = r
  | .add a b | .mul a b | .cmp a b => a = r ∨ b = r
  | .jeq a => a = r ∧ s.e = true
  | .jne a => a = r ∧ s.e = false

/-- A fault of an instruction is OutOfBounds of an address it forms or InvalidRegister of an operand it uses. -/
theorem raises_cases (h : Raises i s c) :
    (∃ x, c = .outOfBounds x ∧ FormsOutside i s x) ∨
    ∃ r : Byte, 8 ≤ r.toNat ∧ c = .invalidRegister r ∧ UsesRegister i s r := by
  cases i with
  | hlt => exact h.elim
  | ret =>
    obtain ⟨hsp, rfl⟩ := h
    exact .inl ⟨_, rfl, hsp, rfl⟩
  | prn a | ldi a b | jmp a =>
    obtain ⟨hge, rfl⟩ := h
    exact .inr ⟨a, hge, rfl, rfl⟩
  | jeq a | jne a =>
    obtain ⟨he, hge, rfl⟩ := h
    exact .inr ⟨a, hge, rfl, rfl, he⟩
  | add a b | mul a b | cmp a b =>
    obtain ⟨hge, rfl⟩ | ⟨-, hge, rfl⟩ := h
    · exact .inr ⟨a, hge, rfl, .inl rfl⟩
    · exact .inr ⟨b, hge, rfl, .inr rfl⟩
  | push a =>
    obtain ⟨hge, rfl⟩ | ⟨-, hsp, rfl⟩ := h
    · exact .inr ⟨a, hge, rfl, rfl⟩
    · exact .inl ⟨_, rfl, hsp, rfl⟩
  | pop a =>
    obtain ⟨hsp, rfl⟩ | ⟨-, hge, rfl⟩ := h
    · exact .inl ⟨_, rfl, hsp, rfl⟩
    · exact .inr ⟨a, hge, rfl, rfl⟩
  | call a =>
    obtain ⟨hbig, rfl⟩ | ⟨-, hsp, rfl⟩ | ⟨-, -, hge, rfl⟩ := h
    · exact .inl ⟨_, rfl, .inl ⟨hbig, rfl⟩⟩
    · exact .inl ⟨_, rfl, .inr ⟨hsp, rfl⟩⟩
    · exact .inr ⟨a, hge, rfl, rfl⟩

/-- Settles O36: the raised cause is one of the two kinds of `raises_cases`; each instruction is then looked up in its
definition. -/
theorem faultsByInstruction : Obligations.FaultsByInstruction := by
  intro i s t hrun h ht
  obtain ⟨c, hr, rfl⟩ := raises_of_exec_faulted hrun h ht
  obtain ⟨x, rfl, hx⟩ | ⟨r, hge, rfl, hu⟩ := raises_cases hr
  · refine .inl ⟨rfl, ?_⟩
    cases i with
    | push a =>
      obtain ⟨hsp, rfl⟩ := hx
      exact .inl ⟨a, rfl, hsp, rfl⟩
    | call a =>
      obtain ⟨hbig, rfl⟩ | ⟨hsp, rfl⟩ := hx
      · exact .inr (.inl ⟨a, rfl, .inl ⟨hbig, BitVec.ofInt_natCast _ _⟩⟩)
      · exact .inr (.inl ⟨a, rfl, .inr ⟨hsp, rfl⟩⟩)
    | pop a =>
      obtain ⟨hsp, rfl⟩ := hx
      exact .inr (.inr (.inl ⟨a, rfl, hsp, rfl⟩))
    | ret =>
      obtain ⟨hsp, rfl⟩ := hx
      exact .inr (.inr (.inr ⟨rfl, hsp, rfl⟩))
    | _ => exact hx.elim
  · refine .inr ⟨rfl, r, hge, rfl, ?_⟩
    cases i with
    | hlt | ret => exact hu.elim
    | prn a | push a | pop a | call a | jmp a | ldi a b =>
      obtain rfl := hu
      simp
    | add a b | mul a b | cmp a b => obtain rfl | rfl := hu <;> simp
    | jeq a | jne a =>
      obtain ⟨rfl, he⟩ := hu
      simp [he]

/-! ## UnsupportedOperation (60_exceptions.md R108, 41_register_alu.md R90) -/

theorem alu_unsupported {tag : BitVec 2} (hadd : tag ≠ tagAdd) (hmul : tag ≠ tagMultiply) (hcmp : tag ≠ tagCompare)
    (x y : Byte) : alu tag x y = .error (.unsupportedOperation tag) := by
  rw [alu, if_neg hadd, if_neg hmul, if_neg hcmp]

/-- Settles O37: a fault of a step is one of its fetch or of its instruction, and the codes of both are at most 3. -/
theorem unsupportedOperationUnreachable : Obligations.UnsupportedOperationUnreachable := by
  refine ⟨fun tag x y hadd hmul hcmp => alu_unsupported hadd hmul hcmp x y, fun c s t hx h ht => ?_⟩
  obtain ⟨f, rfl, hf⟩ := fault_of_executing_step hx h ht
  have hle : f.code.toNat ≤ 3 := by
    obtain hf | ⟨i, -, hr⟩ := hf
    · exact fetchAt_code_le hf
    · exact raises_code_le hr
  intro h4
  have hcode : f.code = 4#3 := h4
  simp [hcode] at hle

/-! ## The terminal run states (60_exceptions.md R120) -/

/-- Settles O49: a step of a terminal core begins and does nothing more. -/
theorem terminalStatesKeepState : Obligations.TerminalStatesKeepState :=
  fun c _ hrst hend => stepWith_of_halted_or_faulted c hrst hend

end Sys2Proof.Machine
end

section
/-!
PROOFS about reset and the boot sequence (70_reset_and_hazards.md): the reset values, the invariant in the reset state, and that
`rst`, the load steps and `start` reach the launch state.
-/

namespace Sys2Proof.Machine

variable {c : Config} {s t : State}

/-! ## Reset (R123) -/

theorem stepWith_of_rst (c : Config) (h : s.input.rst = true) : stepWith c s = .next (afterRst c s) := by
  rw [stepWith, cycle, if_pos h]

/-- Settles O50: a step with `rst` is `afterRst`, whose fields are those of `State.reset`. -/
theorem resetValues : Obligations.ResetValues :=
  ⟨fun _ hrst => ⟨_, stepWith_of_rst Config.spec hrst, rfl, rfl, rfl, rfl, rfl, rfl, rfl, fun _ => rfl, rfl⟩,
    rfl, rfl, rfl, rfl, rfl, rfl, rfl, fun _ => rfl, rfl⟩

/-- Settles O53: `State.reset` is the reset state for the parameters of the spec. -/
theorem resetMeetsInvariant : Obligations.ResetMeetsInvariant :=
  ⟨inv_resetWith Config.spec, inv_resetWith⟩

/-! ## Bytes placed at rising addresses -/

theorem Memory.read_writeBytes_of_lt (vs : List Byte) (m : Memory) {a x : Nat} (hx : x < a) :
    (m.writeBytes a vs).read x = m.read x := by
  induction vs generalizing m a with
  | nil => rfl
  | cons v vs ih =>
    rw [Memory.writeBytes]
    split
    · rw [ih _ (Nat.lt_succ_of_lt hx), Memory.read_write_ne m a x v hx.ne]
    · rfl

theorem Memory.read_writeBytes_add (vs : List Byte) {m : Memory} {a : Nat} (hwf : m.wf = true)
    (hfits : a + vs.length ≤ 256) (k : Nat) : (m.writeBytes a vs).read (a + k) = vs.getD k (m.read (a + k)) := by
  induction vs generalizing m a k with
  | nil => rfl
  | cons v vs ih =>
    rw [List.length_cons] at hfits
    have ha : a < 256 := by omega
    rw [Memory.writeBytes, if_pos ha]
    cases k with
    | zero => exact (Memory.read_writeBytes_of_lt vs _ a.lt_succ_self).trans (Memory.read_write_same m a v hwf)
    | succ k =>
      have hadd : a + (k + 1) = a + 1 + k := by omega
      rw [List.getD_cons_succ, hadd, ih (Memory.wf_write m a v hwf ha) (by omega),
        Memory.read_write_ne m a (a + 1 + k) v (by omega)]

/-! ## The boot sequence (R126, R128) -/

theorem runSteps_succ_of_next (h : stepWith c s = .next t) (n : Nat) : runSteps c (n + 1) s = runSteps c n t := by
  rw [runSteps, h]

/-- The host's inputs that load an image do to an Idle core, one step a byte, what `Memory.writeBytes` does to memory at
once. -/
theorem runSteps_loadScript (c : Config) (vs : List Byte) {a : Nat} (hfits : a + vs.length ≤ 256) (hidle : s.run = .idle)
    (hport : s.outPort = none) (later : List HostInput) (n : Nat) :
    runSteps c (vs.length + n) { s with inputs := loadScript a vs ++ later } =
      runSteps c n { s with mem := s.mem.writeBytes a vs, inputs := later } := by
  induction vs generalizing s a with
  | nil => rw [List.length_nil, Nat.zero_add]; rfl
  | cons v vs ih =>
    rw [List.length_cons] at hfits
    have ha : a < 256 := by omega
    have hload : stepWith c { s with inputs := loadScript a (v :: vs) ++ later } =
        .next { s with mem := s.mem.write a v, inputs := loadScript (a + 1) vs ++ later } := by
      rw [loadScript, if_pos ha, List.cons_append, (loadAndStartPorts c s _ _ rfl).1 hidle]
      simp [HostInput.quiet, hidle, hport, Nat.mod_eq_of_lt ha]
    rw [List.length_cons, Nat.add_right_comm, runSteps_succ_of_next hload,
      ih (s := { s with mem := s.mem.write a v }) (by omega) hidle hport, Memory.writeBytes, if_pos ha]

theorem runSteps_bootScript (c : Config) (s : State) {image : List Byte} (hfits : image.length ≤ 256)
    (later : List HostInput) : runSteps c (image.length + 2) { s with inputs := bootScript image ++ later } =
      .next { launch c image with inputs := later } := by
  have hrst : stepWith c { s with inputs := bootScript image ++ later } =
      .next { State.resetWith c with
        inputs := loadScript 0 image ++ { HostInput.quiet with start := true } :: later } := by
    rw [stepWith_of_rst c rfl]
    simp [afterRst, bootScript]
  have hstart := (loadAndStartPorts c { State.resetWith c with mem := Memory.writeBytes [] 0 image }
    { HostInput.quiet with start := true } later rfl).1 rfl
  rw [runSteps_succ_of_next hrst, runSteps_loadScript c image (by omega) rfl rfl]
  exact runSteps_succ_of_next hstart 0

/-- Settles O52: the run by `runSteps_bootScript`, and the memory of the launch state by the laws of `Memory.writeBytes`. -/
theorem bootReachesLaunchState : Obligations.BootReachesLaunchState := by
  intro c s image later hfits
  refine ⟨runSteps_bootScript c s hfits later, fun k => ?_, Memory.wf_writeBytes image [] 0 rfl, rfl⟩
  have hread := Memory.read_writeBytes_add image (m := []) (a := 0) rfl (by omega) k
  rw [Nat.zero_add] at hread
  exact hread

end Sys2Proof.Machine
end
